-- ==== Sys2Proof/Word.lean ====
section
/-! DEFINITION. The word types of the block (00_scope.md R8, R12): an 8-bit byte or character code, and the 5-bit
value that one character carries. -/

namespace Sys2Proof

/-- A byte of a payload, a character code, or a ROM word: 8 bits (R8, R12). -/
abbrev Byte := BitVec 8

/-- A 5-bit value, the unit one data character carries (R8, glossary "5-bit group"). -/
abbrev Value5 := BitVec 5

end Sys2Proof
end

