-- ==== Sys2Proof/Machine/Lut.lean ====
section
/-! DEFINITION. The two ROMs and the lookup multiplexer (40_lut.md R100 to R110). The ROM contents are constants of the
model (93_implementation_defined.md U3, 40_lut.md R113; log 10). The decode ROM is defined by the six steps of the
table builder, R101 to R105, read slot by slot. -/

namespace Sys2Proof.Machine

/-- The alphabet, index 0 first: `ybndrfg8ejkmcpqxot1uwisza345h769` (40_lut.md R100, Table 40-1). -/
def alphabet : List Byte :=
  [0x79, 0x62, 0x6E, 0x64, 0x72, 0x66, 0x67, 0x38, 0x65, 0x6A, 0x6B, 0x6D, 0x63, 0x70, 0x71, 0x78,
   0x6F, 0x74, 0x31, 0x75, 0x77, 0x69, 0x73, 0x7A, 0x61, 0x33, 0x34, 0x35, 0x68, 0x37, 0x36, 0x39]

/-- `ALPHA[v]`: the alphabet ROM word at the 5-bit address `v` (10_state.md R21, 40_lut.md R100). -/
def alpha (v : Value5) : Byte := alphabet[v.toNat]'v.isLt

/-- A decode ROM word, one of three classes (10_state.md R22, 30_encoding.md R74). -/
inductive DecWord where
  /-- Class VALUE: the character decodes to `v`. -/
  | value (v : Value5)
  /-- Class IGN, ignorable formatting: the separator only. -/
  | ignorable
  /-- Class INV: not a character of any text. -/
  | invalid
deriving DecidableEq, Repr

/-- The 8-bit code of a decode ROM word: 0x00 to 0x1F, `IGN_CODE` = 0xFE, `INV_CODE` = 0xFF (30_encoding.md R74). -/
def DecWord.code : DecWord → Byte
  | .value v => v.setWidth 8
  | .ignorable => 0xFE
  | .invalid => 0xFF

/-- The word passes validation: class VALUE or IGN (43_validate.md R181). -/
def DecWord.passes : DecWord → Bool
  | .value _ | .ignorable => true
  | .invalid => false

/-- The five transcription corrections: '0' as 'o', '2' as 'z', 'l' and '|' as '1', 'v' as 'u' (40_lut.md R103). -/
def correctionTarget (x : Byte) : Option Byte :=
  if x = 0x30 then some 0x6F
  else if x = 0x32 then some 0x7A
  else if x = 0x6C then some 0x31
  else if x = 0x7C then some 0x31
  else if x = 0x76 then some 0x75
  else none

/-- `x` is an ASCII uppercase letter, 'A' to 'Z' (00_scope.md R12). -/
def isUpper (x : Byte) : Bool := decide (0x41#8 ≤ x) && decide (x ≤ 0x5A#8)

/-- `x` is an ASCII lowercase letter, 'a' to 'z' (00_scope.md R12). -/
def isLower (x : Byte) : Bool := decide (0x61#8 ≤ x) && decide (x ≤ 0x7A#8)

/-- The uppercase form: the code minus 0x20 for a lowercase letter, no other code has one (00_scope.md R12). -/
def upperForm (x : Byte) : Option Byte := if isLower x then some (x - 0x20) else none

/-- The lowercase letter of which `x` is the uppercase form, if any (00_scope.md R12). -/
def lowerForm (x : Byte) : Option Byte := if isUpper x then some (x + 0x20) else none

/-- The slot of `x` after steps 2 and 3: every slot invalid, then `decode[alphabet[i]] = i` (40_lut.md R101, R102). -/
def decStep3 (x : Byte) : DecWord :=
  match alphabet.findIdx? (· == x) with
  | some i => .value (BitVec.ofNat 5 i)
  | none => .invalid

/-- The slot of `x` after step 4: a correction character has its target's value (40_lut.md R103). -/
def decStep4 (x : Byte) : DecWord :=
  match correctionTarget x with
  | some y => decStep3 y
  | none => decStep3 x

/-- The slot of `x` after step 5: an uppercase form has its lowercase letter's value (40_lut.md R104). -/
def decStep5 (x : Byte) : DecWord :=
  match lowerForm x with
  | some y => decStep4 y
  | none => decStep4 x

/-- `DEC[x]`: the decode ROM word of `x` after step 6, which marks the separator's slot (40_lut.md R105, R107). -/
def dec (sep x : Byte) : DecWord := if x = sep then .ignorable else decStep5 x

/-- The codes `SEP` may have (00_scope.md R7): (a) its slot is still invalid after step 5, (b) it is not '.', (c) it has
no distinct uppercase or lowercase form. -/
def sepLegal (c : Byte) : Bool :=
  decStep5 c == .invalid && c != 0x2E && (upperForm c).isNone && (lowerForm c).isNone

/-- `LUT(a)`: bit 8 selects the ROM; 0x020 to 0x0FF are reserved and give nothing (40_lut.md R110, 30_encoding.md R76,
20_memory.md R55). -/
def lut (sep : Byte) (a : BitVec 9) : Option Byte :=
  if a.getLsbD 8 then some (dec sep (a.extractLsb' 0 8)).code
  else if a.extractLsb' 5 3 = 0#3 then some (alpha (a.extractLsb' 0 5))
  else none

end Sys2Proof.Machine
end

