-- ==== Sys2Proof/Config.lean ====
section
/-! DEFINITION. The parameters of the block (00_scope.md R6, R7). The three OPEN ones are opaque: nothing in Lean can
evaluate them, so a theorem about the machine holds for every value of them (log 1, log 2). Every operation of the model takes the
parameters as an argument; only the five meanings, the host's moves and the statements name `Config.params`. The widths and
capacities derived from the parameters are in Machine/Widths.lean. -/

namespace Sys2Proof

/-- The OPEN parameters of Table 00-1 (00_scope.md R6). -/
structure Params where
  /-- `SEP`: the separator character code. -/
  sep : Byte
  /-- `SEP_AS_DATA`: the 5-bit value of a separator at a data position (42_decode.md R157). -/
  sepAsData : Value5
  /-- `N_MAX`: the largest input length the block accepts, any natural number. -/
  nMax : Nat
deriving DecidableEq, Repr, Inhabited

/-- The values the implementation chose, unconstrained: a free value of the model (log 1). -/
opaque Config.chosen : Params

/-- The spec's default separator, '-' (00_scope.md R6, Table 00-1). -/
def Config.defaultSep : Byte := 0x2D

/-- The parameters of the block: the implementation's choice, where a `SEP` that 00_scope.md R7 forbids is replaced by
the default. So `SEP` ranges over exactly the codes R7 allows, and the other two over everything (log 1). -/
def Config.params : Params :=
  { Config.chosen with
    sep := if Machine.sepLegal Config.chosen.sep then Config.chosen.sep else Config.defaultSep }

end Sys2Proof
end

