-- ==== Sys2Proof/Syntax.lean ====
section
/-! DEFINITION. The five commands (30_encoding.md R72) and the fields of a command word (R71). -/

namespace Sys2Proof

/-- The command set (30_encoding.md R72, Table 30-2): one constructor for each row of spec/opcode_table.json. No
command word carries an operand (R78); the operands stand in `ILEN`, `IBUF` and `LADDR`. -/
inductive Instr where
  /-- ENC: encode the payload without separators (41_encode.md R130). -/
  | enc
  /-- ENCS: encode the payload with separators (41_encode.md R130). -/
  | encs
  /-- DEC: validate the text, then decode it (42_decode.md R150). -/
  | dec
  /-- VAL: validate the text only (43_validate.md R180). -/
  | val
  /-- LUTRD: read one word through the lookup multiplexer (40_lut.md R111). -/
  | lutrd
deriving DecidableEq, Repr

/-- The fields of format C (30_encoding.md R71, Table 30-1). -/
structure CommandFields where
  /-- `RSV`, bits 7:3. -/
  rsv : BitVec 5
  /-- `S`, bit 2: include separators. -/
  s : BitVec 1
  /-- `OP`, bits 1:0. -/
  op : BitVec 2
deriving DecidableEq, Repr

end Sys2Proof
end

