-- ==== Sys2Proof/WellFormed.lean ====
section
/-! DEFINITION. Which command fields are legal (30_encoding.md R71) and which commands are well formed. -/

namespace Sys2Proof

/-- `RSV` has the one legal value 0b00000 (30_encoding.md R71, Table 30-1). -/
def CommandFields.reservedZero (f : CommandFields) : Bool := f.rsv == 0

/-- `S` is 0 or 1 when `OP` = 0, and 0 only when `OP` is 1, 2 or 3 (30_encoding.md R71, Table 30-1). -/
def CommandFields.optionLegal (f : CommandFields) : Bool := f.op == 0 || f.s == 0

/-- The legal values of format C (30_encoding.md R71). -/
def CommandFields.legal (f : CommandFields) : Bool := f.reservedZero && f.optionLegal

/-- Every command is well formed: no command word carries an immediate (30_encoding.md R78), so a term of `Instr` has
no operand that could be out of range. What is checked of a raw command word is `CommandFields.legal`. -/
def Instr.wellFormed : Instr → Bool
  | .enc | .encs | .dec | .val | .lutrd => true

end Sys2Proof
end

