-- ==== Sys2Proof/Decode.lean ====
section
/-! DEFINITION. The command map of 30_encoding.md R72 and R73: the decoder of `CMD`, total on all 256 words and
rejecting by name, and after it the encoder. -/

namespace Sys2Proof

/-- Why a command word is reserved (30_encoding.md R73). -/
inductive ReservedWord where
  /-- One of 0x05, 0x06, 0x07: `S` = 1 with `OP` not 0. -/
  | optionWithoutEncode
  /-- One of 0x08 to 0xFF: `RSV` not 0. -/
  | reservedBits
deriving DecidableEq, Repr

/-- The fields of a command word (30_encoding.md R71): `RSV` bits 7:3, `S` bit 2, `OP` bits 1:0. -/
def fieldsOf (w : Byte) : CommandFields :=
  { rsv := w.extractLsb' 3 5, s := w.extractLsb' 2 1, op := w.extractLsb' 0 2 }

/-- Decode a command word by comparing all 8 bits with the rows of Table 30-2 (30_encoding.md R72). Every other word
is reserved (R73); it is rejected by the reason R73 gives. -/
def decode (w : Byte) : Except ReservedWord Instr :=
  if w = 0x00 then .ok .enc
  else if w = 0x04 then .ok .encs
  else if w = 0x01 then .ok .dec
  else if w = 0x02 then .ok .val
  else if w = 0x03 then .ok .lutrd
  else if (fieldsOf w).rsv = 0 then .error .optionWithoutEncode
  else .error .reservedBits

/-- The command word of a command, from the `CMD` value column of Table 30-2 (30_encoding.md R72). -/
def encode : Instr → Byte
  | .enc => 0x00
  | .encs => 0x04
  | .dec => 0x01
  | .val => 0x02
  | .lutrd => 0x03

/-- The command whose word has the bits `w`, numbered as spec/opcode_table.json numbers them. A command word is one
byte with nothing after it (30_encoding.md R81), so the bits above `nbits` are zero and the first byte is decoded. -/
def decodeTableWord (nbits w : Nat) : Option Instr :=
  match decode (BitVec.ofNat 8 (w % 2 ^ nbits)) with
  | .ok i => some i
  | .error _ => none

end Sys2Proof
end

