-- ==== Sys2Proof/Machine/State.lean ====
section
/-! DEFINITION. The state of the block (10_state.md R23 to R33), the reasons a step or a host move can stop, and the
state after reset (10_state.md R43, Table 10-3). The two ROMs are constants (Machine/Lut.lean, log 10); the parameters
are no state (10_state.md R40). -/

namespace Sys2Proof.Machine

/-- The contents of a buffer: the bytes that have a value, as cells of index and byte, indices strictly rising. A byte
with no cell has no value (10_state.md R24, R43; 70_reset_and_hazards.md R223; log 7, log 8). -/
abbrev Memory := List Host.Cell

/-- The values of `ST` (10_state.md R29); the code 3 is never written, so it has no name here (93 U11; log 5). -/
inductive Status where
  /-- 0: no command has completed since reset. -/
  | idle
  /-- 1: the last command completed without error. -/
  | ok
  /-- 2: the last command raised InvalidCharacter. -/
  | err
deriving DecidableEq, Repr

/-- The state the spec gives the block (10_state.md Table 10-1, R23, R24). -/
structure State where
  /-- `CMD`, the command word (R26). -/
  cmd : Byte
  /-- `ILEN`, the input length (R27). -/
  ilen : Nat
  /-- `LADDR`, the lookup address (R28). -/
  laddr : BitVec 9
  /-- `ST`, the status of the last command (R29). -/
  st : Status
  /-- `OLEN`, the output length (R30). -/
  olen : Nat
  /-- `ERR_CHAR`, the offending character of the last error (R31). -/
  errChar : Byte
  /-- `ERR_POS`, its 1-based position (R32). -/
  errPos : Nat
  /-- `LDATA`, the word of the last LUTRD (R33). -/
  ldata : Byte
  /-- `IBUF`, the bytes the host has written since reset (R23, R43). -/
  ibuf : Memory
  /-- `OBUF`, the bytes that have a defined value (R24). -/
  obuf : Memory
deriving DecidableEq, Repr

/-- Why a host move faults. No `step` faults: every constructor is raised by a host access in Machine/HostMoves.lean. -/
inductive Fault where
  /-- A host read of `OBUF[index]` with `index >= OLEN`, or of one with no defined value (10_state.md R24, 93 U7). Raised
  by `hostReadObuf`. Safe: the model stops where the hardware returns some value. -/
  | obufUndefined (index : Nat)
  /-- A host read of `IBUF[index]` that nothing has written since reset (93 U8; log 11). Raised by `hostReadIbuf`. Safe. -/
  | ibufUnwritten (index : Nat)
  /-- A host access to an `IBUF` index at or above `N_MAX`, which does not exist (20_memory.md R56). Raised by
  `hostReadIbuf` and `hostWriteIbuf`. Safe. -/
  | ibufNoSuchIndex (index : Nat)
deriving DecidableEq, Repr

/-- Why a start or a host move has no meaning (00_scope.md R14, 60_exceptions.md R201). All are safe: the spec gives the
situation no outcome, and the model proves nothing of it. -/
inductive Refusal where
  /-- A command with no meaning in the model. No arm of `exec` answers with it. Safe. -/
  | notModelled (mnemonic : String)
  /-- START with a reserved command word (60_exceptions.md R201 (a), 30_encoding.md R73). Raised by `step`. Safe. -/
  | reservedCommand (word : Byte) (reason : ReservedWord)
  /-- START of ENC, ENCS, DEC or VAL with `ILEN > N_MAX` (60_exceptions.md R201 (b)). Raised by `withOperand`. Safe. -/
  | lengthOutOfRange (ilen : Nat)
  /-- START of LUTRD with `LADDR` in 0x020 to 0x0FF (60_exceptions.md R201 (c)). Raised by `lookupCommand`. Safe. -/
  | reservedLutAddress (a : BitVec 9)
  /-- START of ENC, ENCS, DEC or VAL with a byte of `IBUF[0..ILEN-1]` never written (60_exceptions.md R201 (d)). Raised by
  `withOperand`. Safe. -/
  | unwrittenOperand
  /-- A host write of a value wider than the register, which is no move (70_reset_and_hazards.md R228, 93 U13). Raised by
  `hostWriteReg`. Safe. -/
  | valueTooWide (value : Nat)
deriving DecidableEq, Repr

/-- What a command or a host move answers. -/
abbrev Result := Host.Outcome State Fault Refusal

/-- The state after reset (10_state.md R43, Table 10-3; 70_reset_and_hazards.md R220): every register 0, `ST` = `IDLE`, no
byte of `IBUF` or `OBUF` with a value. -/
def State.reset : State :=
  { cmd := 0x00, ilen := 0, laddr := 0x000, st := .idle, olen := 0, errChar := 0x00, errPos := 0, ldata := 0x00,
    ibuf := [], obuf := [] }

end Sys2Proof.Machine
end

