-- ==== Sys2Proof/Machine/Flags.lean ====
section
/-! DEFINITION. The block's one flag, `ST`, and the two error registers written with it (10_state.md R29, R31, R32, R37).
The block has no carry, overflow, zero or parity flag (R37). -/

namespace Sys2Proof.Machine

/-- The 2-bit code of `ST` the host reads (10_state.md R29). -/
def Status.code : Status → BitVec 2
  | .idle => 0
  | .ok => 1
  | .err => 2

/-- The flag writes of a command that ends OK: `ST` <- OK, `ERR_CHAR` <- 0, `ERR_POS` <- 0 (10_state.md R29, R31, R32). -/
def State.flagOk (s : State) : State := { s with st := .ok, errChar := 0x00, errPos := 0 }

/-- The flag writes of the error: `ST` <- ERR, `ERR_CHAR` <- `ch`, `ERR_POS` <- `pos` (60_exceptions.md R192, R195). -/
def State.flagErr (s : State) (ch : Byte) (pos : Nat) : State := { s with st := .err, errChar := ch, errPos := pos }

end Sys2Proof.Machine
end

