-- ==== Sys2Proof/Machine/Ops.lean ====
section
/-! DEFINITION. The named operations over the buffers and registers: reading and writing one byte of a buffer, the two
ways a command ends (OK, and the error entry of 60_exceptions.md R195), and fetching a command's operand. -/

namespace Sys2Proof.Machine

/-- The canonical form of a buffer's contents: indices strictly rising. An unlisted byte has no value, so no entry can
equal what an unlisted index reads as. -/
def Memory.wf : Memory → Bool
  | [] => true
  | [_] => true
  | c :: d :: m => decide (c.1 < d.1) && Memory.wf (d :: m)

/-- The byte at index `a`, if it has a value (00_scope.md R13 `MemRead`, 20_memory.md R54). -/
def Memory.read : Memory → Nat → Option Byte
  | [], _ => none
  | (b, v) :: m, a => if a = b then some v else Memory.read m a

/-- Write one byte at index `a`, keeping the canonical form (00_scope.md R13 `MemWrite`, 20_memory.md R54). -/
def Memory.write : Memory → Nat → Byte → Memory
  | [], a, v => [(a, v)]
  | (b, w) :: m, a, v =>
    if a < b then (a, v) :: (b, w) :: m
    else if a = b then (a, v) :: m
    else (b, w) :: Memory.write m a v

/-- The cells of `out` at the indices from `a` up, in index order (20_memory.md R51). -/
def Memory.ofBytesAt (a : Nat) : List Byte → Memory
  | [] => []
  | v :: out => (a, v) :: Memory.ofBytesAt (a + 1) out

/-- A buffer that holds exactly `out`, from index 0 (20_memory.md R51): no other byte has a value. -/
def Memory.ofBytes (out : List Byte) : Memory := Memory.ofBytesAt 0 out

/-- The `n` bytes from index `a` up, when every one of them has a value. -/
def Memory.readFrom (m : Memory) : Nat → Nat → Option (List Byte)
  | _, 0 => some []
  | a, n + 1 =>
    match Memory.read m a, Memory.readFrom m (a + 1) n with
    | some v, some rest => some (v :: rest)
    | _, _ => none

/-- A command ends OK with the result `out`: `OBUF[0..OLEN-1]` <- `out`, `OLEN` <- its length, `ST` <- OK, `ERR_CHAR` <- 0,
`ERR_POS` <- 0 (41_encode.md R139, 42_decode.md R162, 43_validate.md R183). No `OBUF` byte at or above `OLEN` has a
defined value afterwards (10_state.md R24; log 7). -/
def State.complete (s : State) (out : List Byte) : State :=
  { s.flagOk with obuf := Memory.ofBytes out, olen := out.length }

/-- The error entry, `raise InvalidCharacter(ch, pos)`: `ST` <- ERR, `ERR_CHAR` <- `ch`, `ERR_POS` <- `pos`, `OLEN` <- 0, and
nothing else; afterwards no `OBUF` byte has a defined value (60_exceptions.md R195, 10_state.md R24; log 7). There is no
handler, no saved register and no mode to change (R195), and no return from the error: the next command overwrites it
(R197). -/
def State.raiseInvalidCharacter (s : State) (ch : Byte) (pos : Nat) : State :=
  { s.flagErr ch pos with obuf := [], olen := 0 }

/-- Run a command on its operand `IBUF[0..ILEN-1]`. The start is refused when `ILEN > N_MAX` (10_state.md R27) or when a
byte of the range has never been written since reset (70_reset_and_hazards.md R223); both are on the list of
60_exceptions.md R201 and have no order between them (R194; log 9). -/
def withOperand (p : Params) (s : State) (run : List Byte → State) : Result :=
  if p.nMax < s.ilen then .refused (.lengthOutOfRange s.ilen)
  else
    match Memory.readFrom s.ibuf 0 s.ilen with
    | some operand => .next (run operand)
    | none => .refused .unwrittenOperand

end Sys2Proof.Machine
end

