-- ==== Sys2Proof/Machine/Operands.lean ====
section
/-! DEFINITION. The operands assembled from bits (30_encoding.md R78): the encoder's 5-bit slice, the decoder's output
byte, the buffer index of a data character and its 5-bit value, with the counts that bound them. -/

namespace Sys2Proof.Machine

/-- The number of data characters of an n-byte payload, `c = ceil(8 * n / 5)` (41_encode.md R132). -/
def dataCharCount (n : Nat) : Nat := (8 * n + 4) / 5

/-- Slice `k` of the payload, as the pseudocode of 41_encode.md R130 assembles it from one or two adjacent bytes; a byte
past the end of the payload is 0x00 (R133). `j` is below the length for every slice a command takes (log 19). -/
def slice (payload : List Byte) (k : Nat) : Value5 :=
  let j := 5 * k / 8
  let t := 5 * k % 8
  let hi : Byte := payload.getD j 0x00
  let lo : Byte := payload.getD (j + 1) 0x00
  ((hi ++ lo) >>> (11 - t)).setWidth 5

/-- The format flag F: the length is at least 9 and the character at index 8 is `SEP` (42_decode.md R153). -/
def isFormatted (sep : Byte) (text : List Byte) : Bool := decide (9 ≤ text.length) && text[8]? == some sep

/-- The number m of data characters: `L - L div 9` in formatted text, else `L` (42_decode.md R154). -/
def dataCount (formatted : Bool) (len : Nat) : Nat := if formatted then len - len / 9 else len

/-- The number n of output bytes of m data characters, `(5 * m) div 8` (42_decode.md R155). -/
def byteCount (m : Nat) : Nat := 5 * m / 8

/-- The buffer index of data character `k` (42_decode.md R154). -/
def dataIndex (formatted : Bool) (k : Nat) : Nat := if formatted then k + k / 8 else k

/-- The 5-bit value of a data character: the ROM word's value (42_decode.md R156), or `SEP_AS_DATA` for the separator
(R157). An invalid word cannot occur here, validation having passed (R156; log 14). -/
def val5 (sepAsData : Value5) : DecWord → Value5
  | .value v => v
  | .ignorable => sepAsData
  | .invalid => sepAsData

/-- `w(k)` of the pseudocode of 42_decode.md R150: the value of data character `k`, and 0b00000 for k >= m. The index is
below the text's length for every k < m (R154; log 19). -/
def dataValue (p : Params) (text : List Byte) (k : Nat) : Value5 :=
  let f := isFormatted p.sep text
  if k < dataCount f text.length then val5 p.sepAsData (dec p.sep (text.getD (dataIndex f k) 0x00)) else 0b00000

/-- Output byte `j`, cut from three adjacent values `w(k0)`, `w(k0 + 1)`, `w(k0 + 2)` (42_decode.md R150, R159). -/
def unpackByte (w : Nat → Value5) (j : Nat) : Byte :=
  let k0 := 8 * j / 5
  let t := 8 * j % 5
  ((w k0 ++ w (k0 + 1) ++ w (k0 + 2)) >>> (7 - t)).setWidth 8

end Sys2Proof.Machine
end

