-- ==== Sys2Proof/Machine/Validator.lean ====
section
/-! DEFINITION. The validation scan (43_validate.md R181, R182) and VAL (R180). -/

namespace Sys2Proof.Machine

/-- The scan from position `pos` on: the first character whose ROM word is invalid, with its position (43_validate.md R181,
R182). -/
def scanFrom (sep : Byte) : Nat → List Byte → Option (Byte × Nat)
  | _, [] => none
  | pos, x :: rest => if (dec sep x).passes then scanFrom sep (pos + 1) rest else some (x, pos)

/-- The first invalid character of a text and its 1-based position (43_validate.md R182, 00_scope.md R9). -/
def firstInvalid (sep : Byte) (text : List Byte) : Option (Byte × Nat) := scanFrom sep 1 text

/-- The end state of a command that validates first: the error entry at the first invalid character (60_exceptions.md
R195), else OK with the result `out`. VAL and phase 1 of DEC are the same scan (43_validate.md R184). -/
def validated (sep : Byte) (s : State) (text : List Byte) (out : List Byte) : State :=
  match firstInvalid sep text with
  | some (ch, pos) => s.raiseInvalidCharacter ch pos
  | none => s.complete out

/-- VAL: validate `IBUF[0..ILEN-1]` (43_validate.md R180, R183). -/
def validateCommand (p : Params) (s : State) : Result :=
  withOperand p s fun text => validated p.sep s text []

/-- VAL (43_validate.md R180). -/
def execVal (s : State) : Result := validateCommand Config.params s

end Sys2Proof.Machine
end

