-- ==== Sys2Proof/Machine/Decoder.lean ====
section
/-! DEFINITION. DEC (42_decode.md R150 to R167). -/

namespace Sys2Proof.Machine

/-- Phases 2 and 3 of DEC: the output bytes of a text that passed validation (42_decode.md R153 to R161). The bits past the
last whole byte are dropped untested (R161). -/
def decodedBytes (p : Params) (text : List Byte) : List Byte :=
  let m := dataCount (isFormatted p.sep text) text.length
  (List.range (byteCount m)).map (unpackByte (dataValue p text))

/-- DEC: validate `IBUF[0..ILEN-1]`, then decode it into `OBUF` (42_decode.md R150, R152, R162). -/
def decodeCommand (p : Params) (s : State) : Result :=
  withOperand p s fun text => validated p.sep s text (decodedBytes p text)

/-- DEC (42_decode.md R150). -/
def execDec (s : State) : Result := decodeCommand Config.params s

end Sys2Proof.Machine
end

