-- ==== Sys2Proof/Machine/Encoder.lean ====
section
/-! DEFINITION. ENC and ENCS (41_encode.md R130 to R142). -/

namespace Sys2Proof.Machine

/-- The separators written after data character `k` of `c`: one `SEP` when S = 1, `(k + 1) mod 8 = 0` and `k + 1 < c`
(41_encode.md R137). -/
def separatorAfter (sep : Byte) (withSep : Bool) (c k : Nat) : List Byte :=
  if withSep ∧ (k + 1) % 8 = 0 ∧ k + 1 < c then [sep] else []

/-- The text of a payload: for k in 0 .. c - 1, the character of slice k (41_encode.md R134) and the separator that
follows it, if any (R137). -/
def encodedText (sep : Byte) (withSep : Bool) (payload : List Byte) : List Byte :=
  let c := dataCharCount payload.length
  (List.range c).flatMap fun k => alpha (slice payload k) :: separatorAfter sep withSep c k

/-- ENC and ENCS: encode `IBUF[0..ILEN-1]` into `OBUF` (41_encode.md R130, R139). -/
def encodeCommand (p : Params) (withSep : Bool) (s : State) : Result :=
  withOperand p s fun payload => s.complete (encodedText p.sep withSep payload)

/-- ENC: encode without separators (41_encode.md R130, S = 0). -/
def execEnc (s : State) : Result := encodeCommand Config.params false s

/-- ENCS: encode with separators (41_encode.md R130, S = 1). -/
def execEncs (s : State) : Result := encodeCommand Config.params true s

end Sys2Proof.Machine
end

