-- ==== Sys2Proof/Machine/Lookup.lean ====
section
/-! DEFINITION. LUTRD (40_lut.md R111). -/

namespace Sys2Proof.Machine

/-- LUTRD's pseudocode: `LDATA` <- `LUT(LADDR)`, `OLEN` <- 0, `ERR_CHAR` <- 0, `ERR_POS` <- 0, `ST` <- OK; a reserved address
is refused (40_lut.md R111, 20_memory.md R55). It neither reads nor writes `ILEN` and `IBUF`. -/
def lookupCommand (p : Params) (s : State) : Result :=
  match lut p.sep s.laddr with
  | some word => .next { s.complete [] with ldata := word }
  | none => .refused (.reservedLutAddress s.laddr)

/-- LUTRD (40_lut.md R111). -/
def execLutrd (s : State) : Result := lookupCommand Config.params s

end Sys2Proof.Machine
end

