-- ==== Sys2Proof/Machine/Dispatch.lean ====
section
/-! DEFINITION. The dispatch: one arm for each command of 30_encoding.md R72. -/

namespace Sys2Proof.Machine

def exec (i : Instr) (s : State) : Host.Outcome State Fault Refusal :=
  match i with
  | .enc => Sys2Proof.Machine.execEnc s
  | .encs => Sys2Proof.Machine.execEncs s
  | .dec => Sys2Proof.Machine.execDec s
  | .val => Sys2Proof.Machine.execVal s
  | .lutrd => Sys2Proof.Machine.execLutrd s

end Sys2Proof.Machine
end

