-- ==== Sys2Proof/Machine/Step.lean ====
section
/-! DEFINITION. One step: the host gives START, and the block runs the command `CMD` names (10_state.md R34; log 3). -/

namespace Sys2Proof.Machine

/-- One START: the command in `CMD` runs whole, as one atomic step (10_state.md R34, 00_scope.md R3). A reserved command
word is refused (30_encoding.md R73, 60_exceptions.md R201 (a)). -/
def step (s : State) : Host.Outcome State Fault Refusal :=
  match decode s.cmd with
  | .ok i => exec i s
  | .error reason => .refused (.reservedCommand s.cmd reason)

/-- `s` with the command word `w` in `CMD`, where the next START reads it (10_state.md R26, R34). The bits above `nbits` are
zero; a command word has 8 bits (30_encoding.md R81; log 18). -/
def State.withFetchWord (s : State) (nbits w : Nat) : State :=
  { s with cmd := BitVec.ofNat 8 (w % 2 ^ nbits) }

end Sys2Proof.Machine
end

