-- ==== Sys2Proof/Machine/BitStream.lean ====
section
/-! DEFINITION. The bit streams of 00_scope.md R11, in which the statements say what the encoder and the decoder compute
(41_encode.md R133, 42_decode.md R159). The machine computes with the shifts and masks of the pseudocode (Operands.lean);
that the two agree is a statement. -/

namespace Sys2Proof.Machine

/-- `bitsOf8(D)`: bit `8 * j + t` is `D[j][7 - t]` (00_scope.md R11). -/
def bitsOf8 (bytes : List Byte) : List Bool :=
  bytes.flatMap fun b => (List.range 8).map fun t => b.getLsbD (7 - t)

/-- `bitsOf5(W)`: bit `5 * k + t` is `W[k][4 - t]` (00_scope.md R11). -/
def bitsOf5 (values : List Value5) : List Bool :=
  values.flatMap fun v => (List.range 5).map fun t => v.getLsbD (4 - t)

/-- Bit `i` of a stream as a 1-bit field; a bit at or past the end reads as 0 (00_scope.md R11). -/
def streamBit (stream : List Bool) (i : Nat) : BitVec 1 := BitVec.ofBool (stream.getD i false)

/-- `take5(S, k)`: bits 5k to 5k + 4, the earliest most significant (00_scope.md R11). -/
def take5 (stream : List Bool) (k : Nat) : Value5 :=
  streamBit stream (5 * k) ++ streamBit stream (5 * k + 1) ++ streamBit stream (5 * k + 2) ++
    streamBit stream (5 * k + 3) ++ streamBit stream (5 * k + 4)

/-- `take8(S, j)`: bits 8j to 8j + 7, the earliest most significant; used only where `8j + 8 <= len(S)` (00_scope.md R11). -/
def take8 (stream : List Bool) (j : Nat) : Byte :=
  streamBit stream (8 * j) ++ streamBit stream (8 * j + 1) ++ streamBit stream (8 * j + 2) ++
    streamBit stream (8 * j + 3) ++ streamBit stream (8 * j + 4) ++ streamBit stream (8 * j + 5) ++
    streamBit stream (8 * j + 6) ++ streamBit stream (8 * j + 7)

end Sys2Proof.Machine
end

