-- ==== Sys2Proof/Machine/Widths.lean ====
section
/-! DEFINITION. What 00_scope.md R6 derives from the open parameters (Table 00-1), and which parameters are legal (R7). -/

namespace Sys2Proof

/-- `SEP` meets 00_scope.md R7; the other two parameters are unconstrained. -/
def Params.legal (p : Params) : Bool := Machine.sepLegal p.sep

/-- The least w with `2^w > n` (00_scope.md R6, `W_LEN` and `W_OLEN`). -/
def bitsFor (n : Nat) : Nat := if n = 0 then 0 else Nat.log2 n + 1

/-- `O_MAX = c + (c - 1) div 8` for c > 0, else 0, with `c = ceil(8 * N_MAX / 5)` (00_scope.md R6). -/
def Params.oMax (p : Params) : Nat :=
  let c := (8 * p.nMax + 4) / 5
  c + if c = 0 then 0 else (c - 1) / 8

/-- `W_LEN`: the width of `ILEN` and `ERR_POS` (00_scope.md R6). -/
def Params.wLen (p : Params) : Nat := bitsFor p.nMax

/-- `W_OLEN`: the width of `OLEN` (00_scope.md R6). -/
def Params.wOlen (p : Params) : Nat := bitsFor p.oMax

end Sys2Proof
end

