-- ==== Sys2Proof/Machine/HostMoves.lean ====
section
/-! DEFINITION. The host, the only other agent, and the moves Table 70-1 gives it (70_reset_and_hazards.md R228). All of them
fall between commands; a move during a command does not exist, commands being atomic (20_memory.md R59; log 12). -/

namespace Sys2Proof.Machine

/-- The eight registers (10_state.md R25, Table 10-1). -/
inductive Reg where
  | cmd | ilen | laddr | st | olen | errChar | errPos | ldata
deriving DecidableEq, Repr

/-- The register's number, which is a name and not an address (10_state.md R25, Table 10-1). -/
def Reg.number : Reg → Nat
  | .cmd => 0
  | .ilen => 1
  | .laddr => 2
  | .st => 3
  | .olen => 4
  | .errChar => 5
  | .errPos => 6
  | .ldata => 7

/-- The register's width in bits (10_state.md Table 10-1). -/
def Reg.width (p : Params) : Reg → Nat
  | .cmd => 8
  | .ilen => p.wLen
  | .laddr => 9
  | .st => 2
  | .olen => p.wOlen
  | .errChar => 8
  | .errPos => p.wLen
  | .ldata => 8

/-- Whether the host may write the register (10_state.md Table 10-1). -/
def Reg.hostWritable : Reg → Bool
  | .cmd | .ilen | .laddr => true
  | .st | .olen | .errChar | .errPos | .ldata => false

/-- The value a host read of a register returns, as an unsigned number (10_state.md R26 to R33). -/
def State.readReg (s : State) : Reg → Nat
  | .cmd => s.cmd.toNat
  | .ilen => s.ilen
  | .laddr => s.laddr.toNat
  | .st => s.st.code.toNat
  | .olen => s.olen
  | .errChar => s.errChar.toNat
  | .errPos => s.errPos
  | .ldata => s.ldata.toNat

/-- The state with a host-writable register holding `v`; the others take no value from the host (10_state.md R25). -/
def State.setReg (s : State) (r : Reg) (v : Nat) : State :=
  match r with
  | .cmd => { s with cmd := BitVec.ofNat 8 v }
  | .ilen => { s with ilen := v }
  | .laddr => { s with laddr := BitVec.ofNat 9 v }
  | .st | .olen | .errChar | .errPos | .ldata => s

/-- A host write of a register: no effect on one the host may not write (10_state.md R25); a value that does not fit the
width is no move (70_reset_and_hazards.md R228, 93 U13). -/
def hostWriteReg (p : Params) (r : Reg) (v : Nat) (s : State) : Result :=
  if r.hostWritable then
    if v < 2 ^ r.width p then .next (s.setReg r v) else .refused (.valueTooWide v)
  else .next s

/-- A host write of `IBUF[i]`, 0 <= i < `N_MAX` (70_reset_and_hazards.md R228); no other index exists (20_memory.md R56). -/
def hostWriteIbuf (p : Params) (i : Nat) (v : Byte) (s : State) : Result :=
  if i < p.nMax then .next { s with ibuf := Memory.write s.ibuf i v } else .fault (.ibufNoSuchIndex i)

/-- A host read of `IBUF[i]`: the byte, or a fault where nothing has been written since reset (93 U8; log 11). -/
def hostReadIbuf (p : Params) (i : Nat) (s : State) : Except Fault Byte :=
  if i < p.nMax then
    match Memory.read s.ibuf i with
    | some v => .ok v
    | none => .error (.ibufUnwritten i)
  else .error (.ibufNoSuchIndex i)

/-- A host read of `OBUF[i]`: the byte for i < `OLEN`, a model fault otherwise (10_state.md R24, 93 U7). -/
def hostReadObuf (i : Nat) (s : State) : Except Fault Byte :=
  if i < s.olen then
    match Memory.read s.obuf i with
    | some v => .ok v
    | none => .error (.obufUndefined i)
  else .error (.obufUndefined i)

/-- The moves of the host (70_reset_and_hazards.md R228, Table 70-1). -/
inductive HostMove where
  /-- Write a register. -/
  | writeReg (r : Reg) (v : Nat)
  /-- Write `IBUF[i]`. -/
  | writeIbuf (i : Nat) (v : Byte)
  /-- Write `OBUF[i]`: no effect (10_state.md R25, Table 70-1); at i >= `O_MAX`, no index (20_memory.md R56), a DESIGN CHOICE, log 21. -/
  | writeObuf (i : Nat) (v : Byte)
  /-- Read a register. -/
  | readReg (r : Reg)
  /-- Read `IBUF[i]`. -/
  | readIbuf (i : Nat)
  /-- Read `OBUF[i]`. -/
  | readObuf (i : Nat)
  /-- Give `START`. -/
  | start
  /-- Reset. -/
  | reset
deriving DecidableEq, Repr

/-- A read changes nothing (20_memory.md R54, 70_reset_and_hazards.md R228): the state stays, or the read faults. -/
def afterRead (s : State) : Except Fault Byte → Result
  | .ok _ => .next s
  | .error f => .fault f

/-- The effect of one host move (70_reset_and_hazards.md R228, Table 70-1). Table 70-1 gives no outcome for a write of `OBUF[i]`
with i >= `O_MAX`, an index that does not exist (20_memory.md R56); that it too has no effect is a DESIGN CHOICE, log 21 (unsafe). -/
def hostMove (m : HostMove) (s : State) : Result :=
  match m with
  | .writeReg r v => hostWriteReg Config.params r v s
  | .writeIbuf i v => hostWriteIbuf Config.params i v s
  | .writeObuf _ _ => .next s
  | .readReg _ => .next s
  | .readIbuf i => afterRead s (hostReadIbuf Config.params i s)
  | .readObuf i => afterRead s (hostReadObuf i s)
  | .start => step s
  | .reset => .next State.reset

/-- A host program, a finite list of moves, run from `s`; it stops at the first fault or refusal (70_reset_and_hazards.md
R227, 60_exceptions.md R201). -/
def runMoves : List HostMove → State → Result
  | [], s => .next s
  | m :: ms, s =>
    match hostMove m s with
    | .next t => runMoves ms t
    | .fault f => .fault f
    | .refused r => .refused r

/-! ### A line of a host program (30_encoding.md R79, R80) -/

/-- The host's writes of an operand: `IBUF[0..ILEN-1]` in index order, then `ILEN` (30_encoding.md R79). -/
def writeOperand (operand : List Byte) : List HostMove :=
  (operand.zipIdx.map fun c => .writeIbuf c.2 c.1) ++ [.writeReg .ilen operand.length]

/-- The line `ENC <bytes>`, `ENCS <bytes>`, `DEC <text>` or `VAL <text>`: the operand, then `CMD`, then `START`
(30_encoding.md R79). -/
def commandLine (i : Instr) (operand : List Byte) : List HostMove :=
  writeOperand operand ++ [.writeReg .cmd (encode i).toNat, .start]

/-- The line `LUTRD <address>`: the address, then `CMD`, then `START` (30_encoding.md R79). -/
def lookupLine (a : BitVec 9) : List HostMove :=
  [.writeReg .laddr a.toNat, .writeReg .cmd (encode .lutrd).toNat, .start]

/-- The pseudo-operation `encode(data, withSeparators = true)`: ENCS, or ENC when the flag is false (30_encoding.md R80). -/
def encodeLine (data : List Byte) (withSeparators : Bool := true) : List HostMove :=
  commandLine (if withSeparators then .encs else .enc) data

/-- The pseudo-operation `decode(text)` (30_encoding.md R80). -/
def decodeLine (text : List Byte) : List HostMove := commandLine .dec text

/-- The pseudo-operation `validate(text)` (30_encoding.md R80). -/
def validateLine (text : List Byte) : List HostMove := commandLine .val text

end Sys2Proof.Machine
end

