-- ==== Sys2Proof/Safety.lean ====
section
/-! DEFINITION. The terms claims are stated in: the machine for given parameters, when a command executes normally, what
an operand is, and the invariant of the state. -/

namespace Sys2Proof.Machine

/-- The command `i` on a block with the parameters `p`. `exec` is this at the block's own parameters, `Config.params`; a
claim about every `p` is a claim about every block (00_scope.md R6). -/
def runWith (p : Params) (i : Instr) (s : State) : Result :=
  match i with
  | .enc => encodeCommand p false s
  | .encs => encodeCommand p true s
  | .dec => decodeCommand p s
  | .val => validateCommand p s
  | .lutrd => lookupCommand p s

/-- The operand of a start is `operand`: it is `IBUF[0..ILEN-1]`, every byte written, and `ILEN <= N_MAX` (10_state.md R23,
R27; 70_reset_and_hazards.md R223). -/
abbrev OperandIs (p : Params) (s : State) (operand : List Byte) : Prop :=
  s.ilen = operand.length ∧ s.ilen ≤ p.nMax ∧ ∀ i < operand.length, Memory.read s.ibuf i = operand[i]?

/-- Every character of the text passes validation (43_validate.md R181). -/
abbrev AllPass (p : Params) (text : List Byte) : Prop := ∀ x ∈ text, dec p.sep x ≠ .invalid

/-- The command `i` executes normally: its start is none of the refused ones of 60_exceptions.md R201 (b) to (d). -/
abbrev Ready (p : Params) (i : Instr) (s : State) : Prop :=
  if i = .lutrd then ¬ (0x020#9 ≤ s.laddr ∧ s.laddr ≤ 0x0FF#9)
  else s.ilen ≤ p.nMax ∧ ∀ a < s.ilen, (Memory.read s.ibuf a).isSome = true

/-- The state `s` with the end of a command that ended OK with the result `out`, every field spelled out (41_encode.md R139,
42_decode.md R162, 43_validate.md R183). -/
def State.okWith (s : State) (out : List Byte) : State :=
  { cmd := s.cmd, ilen := s.ilen, laddr := s.laddr, st := .ok, olen := out.length, errChar := 0x00, errPos := 0,
    ldata := s.ldata, ibuf := s.ibuf, obuf := Memory.ofBytes out }

/-- The state `s` with the end of a command that raised InvalidCharacter, every field spelled out (60_exceptions.md R195). -/
def State.errWith (s : State) (ch : Byte) (pos : Nat) : State :=
  { cmd := s.cmd, ilen := s.ilen, laddr := s.laddr, st := .err, olen := 0, errChar := ch, errPos := pos,
    ldata := s.ldata, ibuf := s.ibuf, obuf := [] }

/-- The state after the host has copied `OBUF[0..OLEN-1]` to `IBUF` and `OLEN` to `ILEN` (70_reset_and_hazards.md R224,
hazard 4). -/
def State.copyBack (s : State) : State :=
  { s with ilen := s.olen, ibuf := s.obuf.foldl (fun m c => Memory.write m c.1 c.2) s.ibuf }

/-- `y` is `x` or one of the documented variants of the character `x` (42_decode.md R164): its uppercase form, a
transcription error for it, or the uppercase form of one ('L' for '1', 'V' for 'u'). -/
abbrev Variant (x y : Byte) : Prop :=
  y = x ∨ upperForm x = some y ∨ correctionTarget y = some x ∨ (x = 0x31 ∧ y = 0x4C) ∨ (x = 0x75 ∧ y = 0x56)

/-- The invariant of the state: the buffers are in canonical form and within their sizes, `OBUF` holds exactly the bytes
below `OLEN`, every register holds a value that fits it, and the error registers agree with `ST`. -/
structure State.Inv (p : Params) (s : State) : Prop where
  /-- `IBUF` is in canonical form. -/
  ibufCanonical : Memory.wf s.ibuf = true
  /-- `IBUF` has the indices 0 to `N_MAX - 1` (10_state.md R23). -/
  ibufWithin : ∀ c ∈ s.ibuf, c.1 < p.nMax
  /-- `OBUF` holds exactly `OBUF[0..OLEN-1]` (10_state.md R24). -/
  obufDefined : ∃ out : List Byte, s.obuf = Memory.ofBytes out ∧ out.length = s.olen
  /-- No output overflows `OBUF` (00_scope.md R6). -/
  olenFits : s.olen ≤ p.oMax
  /-- `ILEN` fits its register (00_scope.md R6). -/
  ilenFits : s.ilen < 2 ^ p.wLen
  /-- `ERR_POS` names a character of some input (10_state.md R32). -/
  errPosFits : s.errPos ≤ p.nMax
  /-- Unless the last command raised the error, the error registers are 0 (10_state.md R31, R32). -/
  noError : s.st ≠ .err → s.errChar = 0x00 ∧ s.errPos = 0
  /-- After the error there is a position, the character is invalid and there is no output (60_exceptions.md R195). -/
  error : s.st = .err → 0 < s.errPos ∧ dec p.sep s.errChar = .invalid ∧ s.olen = 0
  /-- Before the first command there is no output (10_state.md R43). -/
  idle : s.st = .idle → s.olen = 0 ∧ s.ldata = 0x00

/-- The next state an outcome gives, if any. -/
def nextState? : Result → Option State
  | .next s => some s
  | .fault _ => none
  | .refused _ => none

/-- The reason an outcome is refused, if it is. -/
def refusal? : Result → Option Refusal
  | .next _ => none
  | .fault _ => none
  | .refused r => some r

end Sys2Proof.Machine
end

