-- ==== Sys2Proof/Certificates/Slice0/Obligations.lean ====
section
/-! DEFINITION. The statements for the provers. Each docstring names the rule of spec/ it formalises. A statement about every
`p : Params` is about every block (00_scope.md R6); `RunWithIsExec` ties it to `exec` at the block's own parameters. -/

open Sys2Proof Sys2Proof.Machine

/-! ### Encoding of commands -/

/-- 30_encoding.md R72: the five legal command words, written out from Table 30-2, decode to their commands, and every other
8-bit value is reserved. -/
def Obligations.CommandMapIsTable : Prop :=
  decode 0b00000000#8 = .ok .enc ∧ decode 0b00000100#8 = .ok .encs ∧ decode 0b00000001#8 = .ok .dec ∧
  decode 0b00000010#8 = .ok .val ∧ decode 0b00000011#8 = .ok .lutrd ∧
  ∀ w : Byte, w ≠ 0x00 → w ≠ 0x04 → w ≠ 0x01 → w ≠ 0x02 → w ≠ 0x03 → ∃ reason, decode w = .error reason

/-- 30_encoding.md R72: a word decodes to a command exactly when it is that command's word, so decode and encode agree in
both directions. -/
def Obligations.DecodeAndEncodeAgree : Prop :=
  ∀ (w : Byte) (i : Instr), decode w = .ok i ↔ w = encode i

/-- 30_encoding.md R71: the words the command map accepts are exactly those whose fields have the legal values of Table
30-1. -/
def Obligations.DecoderAcceptsExactlyLegalFields : Prop :=
  ∀ w : Byte, (∃ i, decode w = .ok i) ↔
    ((fieldsOf w).rsv = 0 ∧ ((fieldsOf w).op = 0 ∨ ((fieldsOf w).s = 0 ∧ (fieldsOf w).op ≠ 0)))

/-- 30_encoding.md R73: a START with a reserved `CMD` is refused, whatever else the state holds: 0x05 to 0x07 because `S` = 1
with `OP` not 0, 0x08 to 0xFF because `RSV` is not 0. -/
def Obligations.ReservedWordsRefused : Prop :=
  ∀ s : State,
    (0x05#8 ≤ s.cmd → s.cmd ≤ 0x07#8 → step s = .refused (.reservedCommand s.cmd .optionWithoutEncode)) ∧
    (0x08#8 ≤ s.cmd → step s = .refused (.reservedCommand s.cmd .reservedBits))

/-- 10_state.md R34: one START performs the one command `CMD` names at that moment. A step is the command's `exec` and nothing
around it: the block has no program counter to move (R36). That a step is one START is the model's reading, log 3. -/
def Obligations.StepRunsDecodedCommand : Prop :=
  ∀ (s : State) (i : Instr), decode s.cmd = .ok i → i.wellFormed = true → step s = exec i s

/-- 10_state.md R34: with a command's word in `CMD`, the next START runs that command. The two functions are the host's test
interface (log 3, log 18). -/
def Obligations.FetchedWordRunsItsCommand : Prop :=
  ∀ (s : State) (i : Instr),
    decodeTableWord 8 (encode i).toNat = some i ∧
    step (s.withFetchWord 8 (encode i).toNat) = exec i { s with cmd := encode i }

/-- 00_scope.md R6: `exec` is the machine at the block's own parameters, and those are legal by R7. -/
def Obligations.RunWithIsExec : Prop :=
  Config.params.legal = true ∧ ∀ (i : Instr) (s : State), exec i s = runWith Config.params i s

/-! ### The lookup tables and LUTRD -/

/-- 20_memory.md R55: the lookup map, through the command that reads it. 0x000 to 0x01F read `ALPHA[a[4:0]]`, 0x100 to 0x1FF
read `DEC[a[7:0]]`, and a LUTRD of 0x020 to 0x0FF is refused. -/
def Obligations.LutrdFollowsAddressMap : Prop :=
  ∀ s : State,
    (s.laddr ≤ 0x01F#9 → ∃ t, exec .lutrd s = .next t ∧ t.ldata = alpha (s.laddr.extractLsb' 0 5)) ∧
    (0x020#9 ≤ s.laddr → s.laddr ≤ 0x0FF#9 → exec .lutrd s = .refused (.reservedLutAddress s.laddr)) ∧
    (0x100#9 ≤ s.laddr →
      ∃ t, exec .lutrd s = .next t ∧ t.ldata = (dec Config.params.sep (s.laddr.extractLsb' 0 8)).code)

/-- 40_lut.md R111: LUTRD on an address that is not reserved ends OK with the word in `LDATA` and `OLEN` = 0, and changes no
operand register and no byte of `IBUF`. That no `OBUF` byte has a defined value afterwards is 10_state.md R24 as log 7
reads it. -/
def Obligations.LutrdCompletes : Prop :=
  ∀ s : State, (s.laddr ≤ 0x01F#9 ∨ 0x100#9 ≤ s.laddr) →
    ∃ word, lut Config.params.sep s.laddr = some word ∧
      exec .lutrd s = .next { s.okWith [] with ldata := word }

/-- 40_lut.md R102: `DEC[ALPHA[v]] = v` for every v, for every legal separator; and the 32 alphabet characters are distinct,
so no slot is set twice. -/
def Obligations.DecodeRomInvertsAlphabet : Prop :=
  ∀ p : Params, p.legal = true →
    (∀ v : Value5, dec p.sep (alpha v) = .value v) ∧ ∀ v w : Value5, alpha v = alpha w → v = w

/-- 40_lut.md R103: the five correction characters have the values of their targets, and none of them is in the alphabet. -/
def Obligations.CorrectionsHaveTargetValues : Prop :=
  ∀ p : Params, p.legal = true →
    dec p.sep 0x30 = .value 16 ∧ dec p.sep 0x6F = .value 16 ∧ dec p.sep 0x32 = .value 23 ∧ dec p.sep 0x7A = .value 23 ∧
    dec p.sep 0x6C = .value 18 ∧ dec p.sep 0x7C = .value 18 ∧ dec p.sep 0x31 = .value 18 ∧ dec p.sep 0x76 = .value 19 ∧
    dec p.sep 0x75 = .value 19 ∧
    ∀ v : Value5, alpha v ≠ 0x30 ∧ alpha v ≠ 0x32 ∧ alpha v ≠ 0x6C ∧ alpha v ≠ 0x7C ∧ alpha v ≠ 0x76

/-- 40_lut.md R104: for every code x from 0x61 to 0x7A, `DEC[x - 0x20] = DEC[x]`, a VALUE word; among them 'L' is 18 and 'V' is
19. The ten digits and the bar have no distinct uppercase form and add nothing. -/
def Obligations.UppercaseDecodesAsLowercase : Prop :=
  ∀ p : Params, p.legal = true →
    (∀ x : Byte, 0x61#8 ≤ x → x ≤ 0x7A#8 → dec p.sep (x - 0x20) = dec p.sep x ∧ ∃ v, dec p.sep x = .value v) ∧
    dec p.sep 0x4C = .value 18 ∧ dec p.sep 0x56 = .value 19 ∧
    (∀ x : Byte, 0x30#8 ≤ x → x ≤ 0x39#8 → upperForm x = none) ∧ upperForm 0x7C = none

/-- 40_lut.md R105: `DEC[SEP] = IGN_CODE`, and it is the only IGN word in the ROM. -/
def Obligations.OnlySeparatorIsIgnorable : Prop :=
  ∀ sep x : Byte, dec sep x = .ignorable ↔ x = sep

/-- 40_lut.md R109, R107: for every legal separator 63 codes are valid, 1 is ignorable and 192 are invalid. -/
def Obligations.DecodeRomClassCounts : Prop :=
  ∀ p : Params, p.legal = true →
    ((List.range 256).countP fun x => decide ((dec p.sep (BitVec.ofNat 8 x)).code ≤ 0x1F#8)) = 63 ∧
    ((List.range 256).countP fun x => (dec p.sep (BitVec.ofNat 8 x)).code == 0xFE) = 1 ∧
    ((List.range 256).countP fun x => (dec p.sep (BitVec.ofNat 8 x)).code == 0xFF) = 192

/-- 40_lut.md R108: any character not covered remains invalid. The covered ones are the ten digits, the 26 letters in both
cases, the bar and the separator. -/
def Obligations.InvalidIsExactlyTheUncovered : Prop :=
  ∀ p : Params, p.legal = true → ∀ x : Byte,
    dec p.sep x = .invalid ↔
      ¬ (0x30#8 ≤ x ∧ x ≤ 0x39#8) ∧ ¬ (0x41#8 ≤ x ∧ x ≤ 0x5A#8) ∧ ¬ (0x61#8 ≤ x ∧ x ≤ 0x7A#8) ∧ x ≠ 0x7C ∧ x ≠ p.sep

/-- 30_encoding.md R74: a decode ROM word belongs to one of three classes, told apart by its code; the words 0x20 to 0xFD
occur nowhere. -/
def Obligations.DecodeWordClassFromCode : Prop :=
  ∀ sep x : Byte,
    (∀ v, dec sep x = .value v ↔
      (dec sep x).code.extractLsb' 5 3 = 0b000#3 ∧ (dec sep x).code.extractLsb' 0 5 = v) ∧
    (dec sep x = .ignorable ↔ (dec sep x).code = 0xFE) ∧
    (dec sep x = .invalid ↔ (dec sep x).code = 0xFF) ∧
    ¬ (0x20#8 ≤ (dec sep x).code ∧ (dec sep x).code ≤ 0xFD#8)

/-! ### The encoder -/

/-- 41_encode.md R132: the number of data characters is `ceil(8 * n / 5)`, and with n = 5q + r it is 8q + e(r), e = 0, 2, 4, 5, 7. -/
def Obligations.DataCharCountByGroups : Prop :=
  (∀ n : Nat, 8 * n ≤ 5 * dataCharCount n ∧ 5 * dataCharCount n < 8 * n + 5) ∧
  ∀ q r : Nat, r ≤ 4 → dataCharCount (5 * q + r) = 8 * q + [0, 2, 4, 5, 7].getD r 0

/-- 41_encode.md R133: data character k carries `take5(bitsOf8(D), k)`; the last one contains `5c - 8n` padding bits, which
is 0, 2, 4, 1 or 3 for n mod 5 = 0, 1, 2, 3, 4, and they are zero; no other character contains padding bits. -/
def Obligations.SliceIsBitStreamField : Prop :=
  ∀ payload : List Byte,
    (∀ k < dataCharCount payload.length, slice payload k = take5 (bitsOf8 payload) k) ∧
    5 * dataCharCount payload.length - 8 * payload.length = [0, 2, 4, 1, 3].getD (payload.length % 5) 0 ∧
    (∀ b < 5 * dataCharCount payload.length - 8 * payload.length,
      (slice payload (dataCharCount payload.length - 1)).getLsbD b = false) ∧
    ∀ k, k + 1 < dataCharCount payload.length → 5 * k + 5 ≤ 8 * payload.length

/-- 41_encode.md R135: within the group of the bytes 5g to 5g + 4, a missing byte reading as 0x00, the eight values are those
of the shift and mask column of Table 41-1. -/
def Obligations.EncodeGroupWiring : Prop :=
  ∀ (payload : List Byte) (g : Nat) (b0 b1 b2 b3 b4 : Byte),
    b0 = payload.getD (5 * g) 0 → b1 = payload.getD (5 * g + 1) 0 → b2 = payload.getD (5 * g + 2) 0 →
    b3 = payload.getD (5 * g + 3) 0 → b4 = payload.getD (5 * g + 4) 0 →
    slice payload (8 * g) = (b0 >>> 3).setWidth 5 ∧
    slice payload (8 * g + 1) = (((b0 &&& 0x07) <<< 2) ||| (b1 >>> 6)).setWidth 5 ∧
    slice payload (8 * g + 2) = ((b1 >>> 1) &&& 0x1F).setWidth 5 ∧
    slice payload (8 * g + 3) = (((b1 &&& 0x01) <<< 4) ||| (b2 >>> 4)).setWidth 5 ∧
    slice payload (8 * g + 4) = (((b2 &&& 0x0F) <<< 1) ||| (b3 >>> 7)).setWidth 5 ∧
    slice payload (8 * g + 5) = ((b3 >>> 2) &&& 0x1F).setWidth 5 ∧
    slice payload (8 * g + 6) = (((b3 &&& 0x03) <<< 3) ||| (b4 >>> 5)).setWidth 5 ∧
    slice payload (8 * g + 7) = (b4 &&& 0x1F).setWidth 5

/-- 41_encode.md R136: a tail of 1, 2, 3 or 4 bytes gives 2, 4, 5 or 7 characters, and the last of them is `b0[2:0] ++ 00`,
`b1[0] ++ 0000`, `b2[3:0] ++ 0` or `b3[1:0] ++ 000`. -/
def Obligations.PartialGroupTail : Prop :=
  ∀ (payload : List Byte) (q : Nat),
    (payload.length = 5 * q + 1 → dataCharCount payload.length = 8 * q + 2 ∧
      slice payload (8 * q + 1) = (payload.getD (5 * q) 0).extractLsb' 0 3 ++ 0b00#2) ∧
    (payload.length = 5 * q + 2 → dataCharCount payload.length = 8 * q + 4 ∧
      slice payload (8 * q + 3) = (payload.getD (5 * q + 1) 0).extractLsb' 0 1 ++ 0b0000#4) ∧
    (payload.length = 5 * q + 3 → dataCharCount payload.length = 8 * q + 5 ∧
      slice payload (8 * q + 4) = (payload.getD (5 * q + 2) 0).extractLsb' 0 4 ++ 0b0#1) ∧
    (payload.length = 5 * q + 4 → dataCharCount payload.length = 8 * q + 7 ∧
      slice payload (8 * q + 6) = (payload.getD (5 * q + 3) 0).extractLsb' 0 2 ++ 0b000#3)

/-- 41_encode.md R130, R133, R134, R138, R139: ENC completes on every written payload of at most `N_MAX` bytes. `OBUF` is exactly
the characters `ALPHA[take5(bitsOf8(D), k)]` for k below c and has no other byte with a value (10_state.md R24 as log 7 reads
it), `OLEN` is c, the flags are OK, and nothing else changes. -/
def Obligations.EncCompletes : Prop :=
  ∀ (s : State) (payload : List Byte), OperandIs Config.params s payload →
    exec .enc s =
      .next (s.okWith ((List.range ((8 * payload.length + 4) / 5)).map fun k => alpha (take5 (bitsOf8 payload) k)))

/-- 41_encode.md R130, R137, R138, R139, R142: ENCS completes on every written payload of at most `N_MAX` bytes. `OLEN` is c plus
`(c - 1) div 8`; index i of `OBUF` holds `SEP` when i mod 9 = 8 and otherwise the data character `i - i div 9` of ENC; the
flags are OK, no other `OBUF` byte has a value (10_state.md R24 as log 7 reads it), and nothing else changes. -/
def Obligations.EncsCompletes : Prop :=
  ∀ (s : State) (payload : List Byte), OperandIs Config.params s payload →
    ∃ text : List Byte,
      exec .encs s = .next (s.okWith text) ∧
      text.length = (8 * payload.length + 4) / 5 + ((8 * payload.length + 4) / 5 - 1) / 8 ∧
      ∀ i < text.length,
        text[i]? = some (if i % 9 = 8 then Config.params.sep else alpha (take5 (bitsOf8 payload) (i - i / 9)))

/-- 41_encode.md R138: `OLEN` is c after ENC; after ENCS it is c + s, where s is 0 for c = 0 and otherwise `c div 8` less 1 when c is
a multiple of 8, which equals `(c - 1) div 8`. The largest `OLEN` is `O_MAX`, reached by ENCS at n = `N_MAX`. -/
def Obligations.EncodedLengthFormula : Prop :=
  ∀ (p : Params) (s t : State) (payload : List Byte), OperandIs p s payload →
    let c := dataCharCount payload.length
    (runWith p .enc s = .next t → t.olen = c ∧ t.olen ≤ p.oMax) ∧
    (runWith p .encs s = .next t →
      t.olen = c + (if c = 0 then 0 else c / 8 - if c % 8 = 0 then 1 else 0) ∧ t.olen = c + (c - 1) / 8 ∧
      t.olen ≤ p.oMax ∧ (payload.length = p.nMax → t.olen = p.oMax))

/-- 41_encode.md R142: ENCS output never ends with the separator and never contains two adjacent separators; with `OLEN` at least
9 it has `SEP` at index 8, and every `SEP` in it is at an index i with i mod 9 = 8. -/
def Obligations.SeparatorsNeverTrailNorTouch : Prop :=
  ∀ (p : Params) (s t : State), p.legal = true → runWith p .encs s = .next t →
    Memory.read t.obuf (t.olen - 1) ≠ some p.sep ∧
    (∀ i, ¬ (Memory.read t.obuf i = some p.sep ∧ Memory.read t.obuf (i + 1) = some p.sep)) ∧
    (9 ≤ t.olen → Memory.read t.obuf 8 = some p.sep) ∧
    ∀ i, Memory.read t.obuf i = some p.sep → i % 9 = 8

/-- 41_encode.md R140: encoding has no error outcome and no input is rejected for its content: whatever the written bytes of
`IBUF[0..ILEN-1]` are, both commands end OK. -/
def Obligations.EncodingNeverFails : Prop :=
  ∀ (i : Instr) (s : State), i = .enc ∨ i = .encs →
    s.ilen ≤ Config.params.nMax → (∀ a < s.ilen, (Memory.read s.ibuf a).isSome = true) →
    ∃ t, exec i s = .next t ∧ t.st = .ok ∧ t.errChar = 0x00 ∧ t.errPos = 0

/-- 41_encode.md R141: every data character is canonical, a lowercase letter or a digit, never an uppercase letter or a
correction character; and the output of ENC or ENCS always passes validation. -/
def Obligations.EncodedTextIsCanonicalAndValid : Prop :=
  ∀ (p : Params) (withSep : Bool) (payload : List Byte), p.legal = true →
    (∀ x ∈ encodedText p.sep withSep payload,
      (withSep = true ∧ x = p.sep) ∨
      ((∃ v, x = alpha v) ∧ (isLower x = true ∨ (0x30#8 ≤ x ∧ x ≤ 0x39#8)) ∧ isUpper x = false ∧ correctionTarget x = none)) ∧
    firstInvalid p.sep (encodedText p.sep withSep payload) = none

/-- 41_encode.md R131, 42_decode.md R151: the empty input gives the empty output and no error, to ENC, ENCS and DEC, and no
`OBUF` byte has a value afterwards (10_state.md R24 as log 7 reads it). -/
def Obligations.EmptyInputGivesEmptyOutput : Prop :=
  ∀ (i : Instr) (s : State), i = .enc ∨ i = .encs ∨ i = .dec → s.ilen = 0 → exec i s = .next (s.okWith [])

/-! ### The decoder and the validator -/

/-- 43_validate.md R180, R183: VAL completes on every written text of at most `N_MAX` characters all of which pass, and writes
only the status: `OLEN` = 0, no `OBUF` byte defined (10_state.md R24 as log 7 reads it). -/
def Obligations.ValCompletes : Prop :=
  ∀ (s : State) (text : List Byte), OperandIs Config.params s text → AllPass Config.params text →
    exec .val s = .next (s.okWith [])

/-- 42_decode.md R150, R153 to R156, R159, R162: DEC completes on every written text of at most `N_MAX` characters all of which
pass. With F, m, n and the values W as the rules define them, `OBUF` is exactly `take8(bitsOf5(W), j)` for j below n and has no
other byte with a value (10_state.md R24 as log 7 reads it), `OLEN` is n, the flags are OK, and nothing else changes. A
separator at a data position has the opaque value `SEP_AS_DATA` (R157, log 2). -/
def Obligations.DecCompletes : Prop :=
  ∀ (s : State) (text : List Byte), OperandIs Config.params s text → AllPass Config.params text →
    let formatted := 9 ≤ text.length ∧ text[8]? = some Config.params.sep
    ∃ m : Nat, (formatted → m = text.length - text.length / 9) ∧ (¬ formatted → m = text.length) ∧
    ∃ values : List Value5, values.length = m ∧
      (∀ k < m, ∃ index ch, (formatted → index = k + k / 8) ∧ (¬ formatted → index = k) ∧ text[index]? = some ch ∧
        ((∃ v, dec Config.params.sep ch = .value v ∧ values[k]? = some v) ∨
          (ch = Config.params.sep ∧ values[k]? = some Config.params.sepAsData))) ∧
      exec .dec s = .next (s.okWith ((List.range (5 * m / 8)).map fun j => take8 (bitsOf5 values) j))

/-- 43_validate.md R180, R182, R183 and 42_decode.md R150, R152, 60_exceptions.md R194, R195: the first invalid character, at
index k, ends VAL and DEC alike with the error: `ST` = ERR, `ERR_CHAR` the character, `ERR_POS` = k + 1, `OLEN` = 0, no `OBUF` byte
defined (10_state.md R24 as log 7 reads it), nothing else written; whatever stands after it. -/
def Obligations.FirstInvalidCharacterIsRaised : Prop :=
  ∀ (p : Params) (s : State) (text : List Byte) (k : Nat) (ch : Byte),
    OperandIs p s text → text[k]? = some ch → dec p.sep ch = .invalid → AllPass p (text.take k) →
    runWith p .val s = .next (s.errWith ch (k + 1)) ∧ runWith p .dec s = .next (s.errWith ch (k + 1))

/-- 43_validate.md R184: a text on which VAL ends OK is one on which DEC ends OK, and the reverse; on any other the two end in
the same error state. -/
def Obligations.ValAndDecAgree : Prop :=
  ∀ s : State,
    (∀ t, exec .val s = .next t → t.st = .err → exec .dec s = .next t) ∧
    (∀ t, exec .dec s = .next t → t.st = .err → exec .val s = .next t) ∧
    ((∃ t, exec .val s = .next t ∧ t.st = .ok) ↔ ∃ t, exec .dec s = .next t ∧ t.st = .ok)

/-- 43_validate.md R185: the separator passes validation at every position: a text made of separators and valid characters in
any arrangement passes VAL. -/
def Obligations.SeparatorPassesAnywhere : Prop :=
  ∀ (p : Params) (s : State) (text : List Byte), OperandIs p s text →
    (∀ x ∈ text, x = p.sep ∨ ∃ v, dec p.sep x = .value v) → runWith p .val s = .next (s.okWith [])

/-- 42_decode.md R155, R166: the decoded length of every text that passes: `(5 * (L - L div 9)) div 8` when it is
separator-formatted and `(5 * L) div 8` when it is not; no length is an error. -/
def Obligations.DecodedLengthForEveryText : Prop :=
  ∀ (p : Params) (s : State) (text : List Byte), OperandIs p s text → AllPass p text →
    ∃ t, runWith p .dec s = .next t ∧ t.st = .ok ∧
      (9 ≤ text.length ∧ text[8]? = some p.sep → t.olen = (5 * (text.length - text.length / 9)) / 8) ∧
      (¬ (9 ≤ text.length ∧ text[8]? = some p.sep) → t.olen = (5 * text.length) / 8)

/-- 42_decode.md R159: with all eight bits present, output byte j is `take8(bitsOf5(W), j)`; and they are present for every byte
DEC writes, because 8n <= 5m. -/
def Obligations.UnpackedByteIsBitStreamField : Prop :=
  (∀ (values : List Value5) (j : Nat), 8 * j + 8 ≤ 5 * values.length →
    unpackByte (fun k => values.getD k 0) j = take8 (bitsOf5 values) j) ∧
  ∀ m : Nat, 8 * byteCount m ≤ 5 * m

/-- 42_decode.md R160: within the group of the values 8g to 8g + 7, the five bytes are those of the shift and mask column of
Table 42-2. -/
def Obligations.DecodeGroupWiring : Prop :=
  ∀ (w : Nat → Value5) (g : Nat) (c0 c1 c2 c3 c4 c5 c6 c7 : Byte),
    c0 = (w (8 * g)).setWidth 8 → c1 = (w (8 * g + 1)).setWidth 8 → c2 = (w (8 * g + 2)).setWidth 8 →
    c3 = (w (8 * g + 3)).setWidth 8 → c4 = (w (8 * g + 4)).setWidth 8 → c5 = (w (8 * g + 5)).setWidth 8 →
    c6 = (w (8 * g + 6)).setWidth 8 → c7 = (w (8 * g + 7)).setWidth 8 →
    unpackByte w (5 * g) = (c0 <<< 3) ||| (c1 >>> 2) ∧
    unpackByte w (5 * g + 1) = ((c1 &&& 0x03) <<< 6) ||| (c2 <<< 1) ||| (c3 >>> 4) ∧
    unpackByte w (5 * g + 2) = ((c3 &&& 0x0F) <<< 4) ||| (c4 >>> 1) ∧
    unpackByte w (5 * g + 3) = ((c4 &&& 0x01) <<< 7) ||| (c5 <<< 2) ||| (c6 >>> 3) ∧
    unpackByte w (5 * g + 4) = ((c6 &&& 0x07) <<< 5) ||| c7

/-- 42_decode.md R157: two blocks that differ only in `SEP_AS_DATA` end DEC of the same state with the same `ST`, `OLEN`,
`ERR_CHAR` and `ERR_POS`, and with the same output byte wherever no character that contributes a bit to it is a separator. -/
def Obligations.SepAsDataReachesOnlyItsBytes : Prop :=
  ∀ (p q : Params) (s t u : State) (text : List Byte),
    q.sep = p.sep → q.nMax = p.nMax → OperandIs p s text →
    runWith p .dec s = .next t → runWith q .dec s = .next u →
    t.st = u.st ∧ t.olen = u.olen ∧ t.errChar = u.errChar ∧ t.errPos = u.errPos ∧
    ∀ j < t.olen,
      (∀ k, 8 * j / 5 ≤ k → k ≤ (8 * j + 7) / 5 →
        text[dataIndex (isFormatted p.sep text) k]? ≠ some p.sep) →
      Memory.read t.obuf j = Memory.read u.obuf j

/-- 42_decode.md R158: in separator-formatted text the later skip positions are not read: two texts of one length that pass
validation, both with `SEP` at index 8 and equal at every index that is not a skip position, decode to the same end state. -/
def Obligations.LaterSkipPositionsUnread : Prop :=
  ∀ (p : Params) (s : State) (text other : List Byte),
    text.length = other.length → text[8]? = some p.sep → other[8]? = some p.sep →
    AllPass p text → AllPass p other → (∀ i, i % 9 ≠ 8 → text[i]? = other[i]?) →
    validated p.sep s text (decodedBytes p text) = validated p.sep s other (decodedBytes p other)

/-- 42_decode.md R161: the last `5m - 8n` bits of the values' stream are dropped without being tested: two texts of one length
and format that pass validation and whose value streams agree on the first 8n bits decode to the same end state, with `ST` = OK. -/
def Obligations.TrailingBitsDroppedUnchecked : Prop :=
  ∀ (p : Params) (s : State) (text other : List Byte) (m : Nat),
    text.length = other.length → isFormatted p.sep text = isFormatted p.sep other →
    m = dataCount (isFormatted p.sep text) text.length →
    AllPass p text → AllPass p other →
    (bitsOf5 ((List.range m).map (dataValue p text))).take (8 * (5 * m / 8)) =
      (bitsOf5 ((List.range m).map (dataValue p other))).take (8 * (5 * m / 8)) →
    validated p.sep s text (decodedBytes p text) = validated p.sep s other (decodedBytes p other) ∧
    (validated p.sep s text (decodedBytes p text)).st = .ok

/-- 42_decode.md R167: DEC is not injective: two different texts of the same length, "9h" and "99", decode to the same payload,
FF, with `ST` = OK. -/
def Obligations.DecodeIsNotInjective : Prop :=
  ∀ (p : Params) (s : State), p.legal = true →
    validated p.sep s [0x39, 0x68] (decodedBytes p [0x39, 0x68]) = s.okWith [0xFF] ∧
    validated p.sep s [0x39, 0x39] (decodedBytes p [0x39, 0x39]) = s.okWith [0xFF]

/-- 42_decode.md R165: the decoder's length formulas invert the encoder's for every payload and both settings: the text is taken
for separator-formatted exactly when a separator was written, the data count is c, and the byte count is n. -/
def Obligations.DecodeLengthInvertsEncode : Prop :=
  ∀ (p : Params) (withSep : Bool) (payload : List Byte), p.legal = true →
    let text := encodedText p.sep withSep payload
    (isFormatted p.sep text = true ↔ withSep = true ∧ 9 ≤ dataCharCount payload.length) ∧
    dataCount (isFormatted p.sep text) text.length = dataCharCount payload.length ∧
    byteCount (dataCount (isFormatted p.sep text) text.length) = payload.length

/-- 42_decode.md R163, the round trip: on every block, for every payload of at most `N_MAX` bytes whose ENC or ENCS output also
fits in `N_MAX`, running the encoder, copying `OBUF` to `IBUF` and `OLEN` to `ILEN`, and running DEC ends with `ST` = OK, `OLEN` the
payload's length and `OBUF` the payload. It holds for every legal `SEP` and every `SEP_AS_DATA`. -/
def Obligations.DecodeUndoesEncode : Prop :=
  ∀ (p : Params) (i : Instr) (s : State) (payload : List Byte),
    p.legal = true → i = .enc ∨ i = .encs → OperandIs p s payload →
    (encodedText p.sep (i == .encs) payload).length ≤ p.nMax →
    ∃ t u, runWith p i s = .next t ∧ runWith p .dec t.copyBack = .next u ∧
      u.st = .ok ∧ u.olen = payload.length ∧ ∀ a < payload.length, Memory.read u.obuf a = payload[a]?

/-- 42_decode.md R164, alias tolerance: replacing any characters of an encoder's output by their documented variants, in any
places and any mixture, still decodes to the original payload. -/
def Obligations.VariantsStillDecode : Prop :=
  ∀ (p : Params) (withSep : Bool) (s : State) (payload text : List Byte),
    p.legal = true → OperandIs p s text →
    List.Forall₂ Variant (encodedText p.sep withSep payload) text →
    runWith p .dec s = .next (s.okWith payload)

/-! ### Errors, frames and the whole machine -/

/-- 60_exceptions.md R197 with 10_state.md R29 to R32: every command that completes writes the status and both error registers.
`ST` is never left IDLE; with OK both error registers are 0; with ERR, `ERR_POS` is from 1 to `ILEN`, `ERR_CHAR` is the character of
`IBUF` at that position, it is invalid, and `OLEN` is 0. -/
def Obligations.EveryCommandWritesStatus : Prop :=
  ∀ (i : Instr) (s t : State), exec i s = .next t →
    t.st ≠ .idle ∧
    (t.st = .ok → t.errChar = 0x00 ∧ t.errPos = 0) ∧
    (t.st = .err → t.olen = 0 ∧ 1 ≤ t.errPos ∧ t.errPos ≤ s.ilen ∧
      Memory.read s.ibuf (t.errPos - 1) = some t.errChar ∧ dec Config.params.sep t.errChar = .invalid)

/-- 60_exceptions.md R193: only VAL and DEC can raise the error; ENC, ENCS and LUTRD cannot, whatever their operands. -/
def Obligations.OnlyValAndDecRaise : Prop :=
  ∀ (i : Instr) (s t : State), exec i s = .next t → t.st = .err → i = .val ∨ i = .dec

/-- The frame of every command (10_state.md R23, R33; 41_encode.md R139, 42_decode.md R162, 43_validate.md R183, 40_lut.md R111):
`CMD`, `ILEN`, `LADDR` and every byte of `IBUF` are unchanged, and `LDATA` too unless the command is LUTRD; VAL and LUTRD write no
`OBUF` byte and leave `OLEN` = 0, so none has a value afterwards (10_state.md R24 as log 7 reads it). -/
def Obligations.OperandsAndLdataUnchanged : Prop :=
  ∀ (i : Instr) (s t : State), exec i s = .next t →
    t.cmd = s.cmd ∧ t.ilen = s.ilen ∧ t.laddr = s.laddr ∧
    (∀ a, Memory.read t.ibuf a = Memory.read s.ibuf a) ∧
    (i ≠ .lutrd → t.ldata = s.ldata) ∧
    (i = .val ∨ i = .lutrd → t.olen = 0 ∧ ∀ a, Memory.read t.obuf a = none)

/-- 10_state.md R24 as log 7 reads it: after every command the bytes of `OBUF` with a defined value are exactly those below
`OLEN`. -/
def Obligations.ObufDefinedExactlyBelowOlen : Prop :=
  ∀ (i : Instr) (s t : State), exec i s = .next t → ∀ a, (Memory.read t.obuf a).isSome = true ↔ a < t.olen

/-- 70_reset_and_hazards.md R225: two STARTs with the same `CMD`, the same `ILEN` and `IBUF[0..ILEN-1]` or, for LUTRD, the same
`LADDR`, give the same results, whatever earlier commands left. -/
def Obligations.OutcomeIgnoresEarlierState : Prop :=
  ∀ (i : Instr) (s u t : State),
    decode s.cmd = .ok i → u.cmd = s.cmd →
    (i ≠ .lutrd → u.ilen = s.ilen ∧ ∀ a < s.ilen, Memory.read u.ibuf a = Memory.read s.ibuf a) →
    (i = .lutrd → u.laddr = s.laddr) →
    step s = .next t →
    ∃ v, step u = .next v ∧ v.st = t.st ∧ v.olen = t.olen ∧ v.errChar = t.errChar ∧ v.errPos = t.errPos ∧
      (∀ a < t.olen, Memory.read v.obuf a = Memory.read t.obuf a) ∧ (i = .lutrd → v.ldata = t.ldata)

/-- 60_exceptions.md R201: the refused starts are exactly (a) a reserved `CMD`, (b) ENC, ENCS, DEC or VAL with `ILEN > N_MAX`, (c)
LUTRD with `LADDR` in 0x020 to 0x0FF, (d) ENC, ENCS, DEC or VAL with an operand byte never written; and no step faults. -/
def Obligations.RefusedStartsAreExactlyTheListed : Prop :=
  ∀ s : State,
    ((∃ r, step s = .refused r) ↔
      0x04#8 < s.cmd ∨
      (s.cmd ≠ 0x03 ∧ Config.params.nMax < s.ilen) ∨
      (s.cmd = 0x03 ∧ 0x020#9 ≤ s.laddr ∧ s.laddr ≤ 0x0FF#9) ∨
      (s.cmd ≠ 0x03 ∧ ∃ a < s.ilen, Memory.read s.ibuf a = none)) ∧
    ∀ f, step s ≠ .fault f

/-- 70_reset_and_hazards.md R227: every command started outside the refused cases terminates with outcome OK or ERR. -/
def Obligations.ReadyCommandsComplete : Prop :=
  ∀ (i : Instr) (s : State), Ready Config.params i s → ∃ t, exec i s = .next t ∧ (t.st = .ok ∨ t.st = .err)

/-! ### Reset and the invariant -/

/-- 70_reset_and_hazards.md R220: the registers after reset, and that no byte of `IBUF` or `OBUF` has a value. -/
def Obligations.ResetValues : Prop :=
  State.reset.st = .idle ∧ State.reset.olen = 0 ∧ State.reset.errChar = 0x00 ∧ State.reset.errPos = 0 ∧
  State.reset.ldata = 0x00 ∧ State.reset.cmd = 0x00 ∧ State.reset.ilen = 0 ∧ State.reset.laddr = 0x000 ∧
  ∀ a, Memory.read State.reset.ibuf a = none ∧ Memory.read State.reset.obuf a = none

/-- The state after reset meets the invariant. -/
def Obligations.ResetMeetsInvariant : Prop := State.reset.Inv Config.params

/-- Every step keeps the invariant, from every state that meets it: canonical buffers within their sizes, `OBUF` exactly the
bytes below `OLEN`, no length register overflowing, the error registers agreeing with `ST`. -/
def Obligations.StepKeepsInvariant : Prop :=
  ∀ s t : State, s.Inv Config.params → step s = .next t → t.Inv Config.params

/-- Every move of the host keeps the invariant, and so does every host program. -/
def Obligations.HostProgramsKeepInvariant : Prop :=
  ∀ (moves : List HostMove) (s t : State), s.Inv Config.params → runMoves moves s = .next t → t.Inv Config.params

/-! ### The host's moves -/

/-- 70_reset_and_hazards.md R228, 10_state.md R24: in a state that meets the invariant, a host read of `OBUF[i]` returns a byte for
i < `OLEN`, leaving the state, and is a fault for i >= `OLEN`. -/
def Obligations.HostReadsObufBelowOlenOnly : Prop :=
  ∀ (s : State) (i : Nat), s.Inv Config.params →
    (i < s.olen → (∃ v, hostReadObuf i s = .ok v ∧ Memory.read s.obuf i = some v) ∧ hostMove (.readObuf i) s = .next s) ∧
    (s.olen ≤ i → hostMove (.readObuf i) s = .fault (.obufUndefined i))

/-- 10_state.md R25, 70_reset_and_hazards.md Table 70-1: a host write to a register the host may not write has no effect on it, nor
has a host write of `OBUF`. The table gives no outcome for a write of `OBUF[i]` with i at or above `O_MAX`, an index that does not
exist (20_memory.md R56); that it has no effect either is the model's own DESIGN CHOICE, log 21. -/
def Obligations.ReadOnlyWritesHaveNoEffect : Prop :=
  ∀ (r : Reg) (v i : Nat) (b : Byte) (s : State), r ≠ .cmd → r ≠ .ilen → r ≠ .laddr →
    hostMove (.writeReg r v) s = .next s ∧ hostMove (.writeObuf i b) s = .next s

/-- 70_reset_and_hazards.md R228: a host write of `CMD`, `ILEN` or `LADDR` with a value that fits gives the register that value and
changes no other register and no buffer. A value that does not fit is no move (R228, 93 U13); that the model answers it by the
refusal `valueTooWide` is the model's own DESIGN CHOICE, log 4. -/
def Obligations.OperandRegisterWrites : Prop :=
  ∀ (r : Reg) (v : Nat) (s : State), r = .cmd ∨ r = .ilen ∨ r = .laddr →
    (v < 2 ^ r.width Config.params →
      ∃ t, hostMove (.writeReg r v) s = .next t ∧ t.readReg r = v ∧ (∀ q, q ≠ r → t.readReg q = s.readReg q) ∧
        t.ibuf = s.ibuf ∧ t.obuf = s.obuf) ∧
    (2 ^ r.width Config.params ≤ v → hostMove (.writeReg r v) s = .refused (.valueTooWide v))

/-- 70_reset_and_hazards.md R228: a host write of `IBUF[i]`, i < `N_MAX`, gives that byte the value and leaves every other byte, every
register and `OBUF`; a host read of a byte that has a value returns it and leaves the state. An index at or above `N_MAX` does not
exist (20_memory.md R56) and a byte nothing has written since reset has no value (93 U8); that the host's write or read of such an
index, and its read of such a byte, are faults of these names is the model's own choice, log 11. -/
def Obligations.IbufWriteThenRead : Prop :=
  (∀ (p : Params) (i : Nat) (v : Byte) (s : State),
    (i < p.nMax → ∃ t, hostWriteIbuf p i v s = .next t ∧ hostReadIbuf p i t = .ok v ∧
      (∀ a, a ≠ i → Memory.read t.ibuf a = Memory.read s.ibuf a) ∧ { t with ibuf := s.ibuf } = s) ∧
    (i < p.nMax → Memory.read s.ibuf i = some v → hostReadIbuf p i s = .ok v) ∧
    (i < p.nMax → Memory.read s.ibuf i = none → hostReadIbuf p i s = .error (.ibufUnwritten i)) ∧
    (p.nMax ≤ i → hostWriteIbuf p i v s = .fault (.ibufNoSuchIndex i) ∧
      hostReadIbuf p i s = .error (.ibufNoSuchIndex i))) ∧
  ∀ (i : Nat) (v : Byte) (s : State),
    hostMove (.writeIbuf i v) s = hostWriteIbuf Config.params i v s ∧
    (∀ w, hostReadIbuf Config.params i s = .ok w → hostMove (.readIbuf i) s = .next s) ∧
    ∀ f, hostReadIbuf Config.params i s = .error f → hostMove (.readIbuf i) s = .fault f

/-- 70_reset_and_hazards.md R228: a host read of a register returns the register's value, in every state, and leaves the state; `ST`
reads 0 for IDLE, 1 for OK and 2 for ERR (10_state.md R29, 60_exceptions.md R191). No read of a buffer has a side effect: it leaves
the state or it faults. -/
def Obligations.HostReadsChangeNothing : Prop :=
  (∀ s : State,
    (∀ r, hostMove (.readReg r) s = .next s) ∧
    s.readReg .cmd = s.cmd.toNat ∧ s.readReg .ilen = s.ilen ∧ s.readReg .laddr = s.laddr.toNat ∧
    (s.st = .idle → s.readReg .st = 0) ∧ (s.st = .ok → s.readReg .st = 1) ∧ (s.st = .err → s.readReg .st = 2) ∧
    s.readReg .olen = s.olen ∧ s.readReg .errChar = s.errChar.toNat ∧ s.readReg .errPos = s.errPos ∧
    s.readReg .ldata = s.ldata.toNat) ∧
  ∀ (m : HostMove) (s t : State),
    (∃ r, m = .readReg r) ∨ (∃ i, m = .readIbuf i) ∨ (∃ i, m = .readObuf i) → hostMove m s = .next t → t = s

/-- 10_state.md R25 Table 10-1 and 00_scope.md R6: the widths of the eight registers, `W_LEN` and `W_OLEN` being the least w with
`2^w > N_MAX` and `2^w > O_MAX`; and in every state that meets the invariant each register's value fits its width. -/
def Obligations.RegisterValuesFitWidths : Prop :=
  ∀ p : Params,
    Reg.cmd.width p = 8 ∧ Reg.laddr.width p = 9 ∧ Reg.st.width p = 2 ∧ Reg.errChar.width p = 8 ∧ Reg.ldata.width p = 8 ∧
    Reg.errPos.width p = Reg.ilen.width p ∧
    (∀ w, p.nMax < 2 ^ w ↔ Reg.ilen.width p ≤ w) ∧ (∀ w, p.oMax < 2 ^ w ↔ Reg.olen.width p ≤ w) ∧
    ∀ (s : State) (r : Reg), s.Inv p → s.readReg r < 2 ^ r.width p

/-- 30_encoding.md R79: a line of a host program with an operand of at most `N_MAX` bytes, run from any state, comes to START with
that operand in `IBUF[0..ILEN-1]`, its length in `ILEN`, the command's word in `CMD`, and everything else as it was, every byte of
`IBUF` at or above the operand's length included; the line gives what the command gives there. The line `LUTRD <address>` comes to
START with the address in `LADDR`, the word in `CMD` and everything else as it was. R80: `encode(data)` with the flag left out is
ENCS. -/
def Obligations.ProgramLineRunsItsCommand : Prop :=
  (∀ (i : Instr) (operand : List Byte) (s : State), i ≠ .lutrd → operand.length ≤ Config.params.nMax →
    ∃ u, OperandIs Config.params u operand ∧
      (∀ a, operand.length ≤ a → Memory.read u.ibuf a = Memory.read s.ibuf a) ∧
      u = { s with cmd := encode i, ilen := operand.length, ibuf := u.ibuf } ∧
      runMoves (commandLine i operand) s = exec i u) ∧
  (∀ (a : BitVec 9) (s : State), runMoves (lookupLine a) s = exec .lutrd { s with cmd := encode .lutrd, laddr := a }) ∧
  ∀ data : List Byte,
    encodeLine data = commandLine .encs data ∧ encodeLine data true = commandLine .encs data ∧
    encodeLine data false = commandLine .enc data ∧ decodeLine data = commandLine .dec data ∧
    validateLine data = commandLine .val data
end

