-- ==== Sys2Proof/Laws/Memory.lean ====
section
/-! SUPPORT. The laws of the buffers: what a byte reads as after a write, what a freshly filled buffer holds, and that every
operation keeps the canonical form. -/

namespace Sys2Proof.Machine

@[simp] theorem Memory.read_nil (a : Nat) : Memory.read [] a = none := rfl

/-! ### Read after write -/

/-- A write gives the written byte its value. -/
@[simp] theorem Memory.read_write_same (m : Memory) (a : Nat) (v : Byte) : Memory.read (Memory.write m a v) a = some v := by
  induction m with
  | nil => simp [Memory.write, Memory.read]
  | cons c m ih =>
    obtain ⟨b, w⟩ := c
    rw [Memory.write]
    split
    · simp [Memory.read]
    · split
      · simp [Memory.read]
      · simp [Memory.read, *]

/-- A write leaves every other byte. -/
theorem Memory.read_write_other (m : Memory) {a b : Nat} (v : Byte) (h : b ≠ a) :
    Memory.read (Memory.write m a v) b = Memory.read m b := by
  induction m with
  | nil => simp [Memory.write, Memory.read, h]
  | cons c m ih =>
    obtain ⟨d, w⟩ := c
    rw [Memory.write]
    split
    · simp [Memory.read, h]
    · split
      · subst_vars; simp [Memory.read, h]
      · simp [Memory.read, ih]

/-! ### The canonical form -/

/-- The canonical form, read off the first cell. -/
theorem Memory.wf_cons (c : Host.Cell) (m : Memory) :
    Memory.wf (c :: m) = true ↔ (∀ d ∈ m.head?, c.1 < d.1) ∧ Memory.wf m = true := by
  cases m <;> simp [Memory.wf]

/-- The first cell after a write has the written index or an index that was there. -/
theorem Memory.head_write (m : Memory) (a : Nat) (v : Byte) :
    ∀ d ∈ (Memory.write m a v).head?, d.1 = a ∨ ∃ e ∈ m.head?, d.1 = e.1 := by
  cases m with
  | nil => simp [Memory.write]
  | cons c m =>
    obtain ⟨b, w⟩ := c
    rw [Memory.write]
    split
    · simp
    · split <;> simp

/-- A write keeps the canonical form. -/
theorem Memory.write_wf (m : Memory) (a : Nat) (v : Byte) (h : Memory.wf m = true) :
    Memory.wf (Memory.write m a v) = true := by
  induction m with
  | nil => rfl
  | cons c m ih =>
    obtain ⟨b, w⟩ := c
    obtain ⟨hhead, htail⟩ := (Memory.wf_cons _ _).mp h
    rw [Memory.write]
    split
    · exact (Memory.wf_cons _ _).mpr ⟨by simpa using ‹_›, h⟩
    · split
      · subst_vars; exact (Memory.wf_cons _ _).mpr ⟨hhead, htail⟩
      · refine (Memory.wf_cons _ _).mpr ⟨fun d hd => ?_, ih htail⟩
        obtain hd | ⟨e, he, hd⟩ := Memory.head_write m a v d hd
        · simp only; omega
        · have := hhead e he; simp only at this ⊢; omega

/-- The cells after a write are the written one and cells that were there. -/
theorem Memory.mem_write {m : Memory} {a : Nat} {v : Byte} {c : Host.Cell} (h : c ∈ Memory.write m a v) :
    c.1 = a ∨ c ∈ m := by
  induction m with
  | nil => left; simp [Memory.write] at h; simp [h]
  | cons d m ih =>
    obtain ⟨b, w⟩ := d
    rw [Memory.write] at h
    split at h
    · rcases List.mem_cons.mp h with rfl | h
      · exact .inl rfl
      · exact .inr h
    · split at h
      · rcases List.mem_cons.mp h with rfl | h
        · exact .inl rfl
        · exact .inr (List.mem_cons_of_mem _ h)
      · rcases List.mem_cons.mp h with rfl | h
        · exact .inr (List.mem_cons_self ..)
        · exact (ih h).imp_right (List.mem_cons_of_mem _)

/-! ### A freshly filled buffer -/

/-- A buffer filled from index `a` reads the filled bytes there and has no value elsewhere. -/
theorem Memory.read_ofBytesAt (out : List Byte) (a i : Nat) :
    Memory.read (Memory.ofBytesAt a out) i = if a ≤ i then out[i - a]? else none := by
  induction out generalizing a with
  | nil => simp [Memory.ofBytesAt]
  | cons v out ih =>
    rw [Memory.ofBytesAt, Memory.read, ih]
    by_cases h : i = a
    · simp [h]
    · by_cases h' : a ≤ i
      · have : i - a = (i - (a + 1)) + 1 := by omega
        simp [h, h', this, show a + 1 ≤ i by omega]
      · simp [h, h', show ¬ a + 1 ≤ i by omega]

/-- A buffer that holds `out` reads `out` and nothing past its end. -/
@[simp] theorem Memory.read_ofBytes (out : List Byte) (i : Nat) : Memory.read (Memory.ofBytes out) i = out[i]? := by
  simp [Memory.ofBytes, Memory.read_ofBytesAt]

/-- Filling from index `a` gives the canonical form. -/
theorem Memory.ofBytesAt_wf (out : List Byte) (a : Nat) : Memory.wf (Memory.ofBytesAt a out) = true := by
  induction out generalizing a with
  | nil => rfl
  | cons v out ih =>
    refine (Memory.wf_cons _ _).mpr ⟨?_, ih (a + 1)⟩
    cases out <;> simp [Memory.ofBytesAt]

/-- A buffer that holds `out` is in canonical form. -/
@[simp] theorem Memory.ofBytes_wf (out : List Byte) : Memory.wf (Memory.ofBytes out) = true := Memory.ofBytesAt_wf out 0

@[simp] theorem Memory.ofBytes_nil : Memory.ofBytes [] = [] := rfl

/-- The buffer after reset is in canonical form. -/
theorem Memory.reset_wf : Memory.wf State.reset.ibuf = true ∧ Memory.wf State.reset.obuf = true := ⟨rfl, rfl⟩

/-! ### Reading a range -/

/-- `readFrom` answers `bytes` exactly when they are what the `n` indices from `a` read as. -/
theorem Memory.readFrom_eq_some (m : Memory) (a n : Nat) (bytes : List Byte) :
    Memory.readFrom m a n = some bytes ↔
      bytes.length = n ∧ ∀ i < n, Memory.read m (a + i) = bytes[i]? := by
  induction n generalizing a bytes with
  | zero => cases bytes <;> simp [Memory.readFrom]
  | succ n ih =>
    rw [Memory.readFrom]
    constructor
    · intro h
      split at h
      · rename_i v rest hv hrest
        obtain rfl := Option.some.inj h
        obtain ⟨hlen, hread⟩ := (ih _ _).mp hrest
        refine ⟨by simp [hlen], fun i hi => ?_⟩
        cases i with
        | zero => simpa using hv
        | succ i => simpa [Nat.add_assoc, Nat.add_comm 1 i] using hread i (by omega)
      · exact absurd h (by simp)
    · rintro ⟨hlen, hread⟩
      cases bytes with
      | nil => simp at hlen
      | cons v rest =>
        have hv : Memory.read m a = some v := by simpa using hread 0 (by omega)
        have hrest : Memory.readFrom m (a + 1) n = some rest :=
          (ih _ _).mpr ⟨by simpa using hlen, fun i hi => by
            simpa [Nat.add_assoc, Nat.add_comm 1 i] using hread (i + 1) (by omega)⟩
        rw [hv, hrest]

/-- `readFrom` gives nothing exactly when some byte of the range has no value. -/
theorem Memory.readFrom_eq_none (m : Memory) (a n : Nat) :
    Memory.readFrom m a n = none ↔ ∃ i < n, Memory.read m (a + i) = none := by
  induction n generalizing a with
  | zero => simp [Memory.readFrom]
  | succ n ih =>
    have key : Memory.readFrom m a (n + 1) = none ↔ Memory.read m a = none ∨ Memory.readFrom m (a + 1) n = none := by
      rw [Memory.readFrom]
      cases Memory.read m a <;> cases Memory.readFrom m (a + 1) n <;> simp
    rw [key, ih]
    constructor
    · rintro (h | ⟨i, hi, h⟩)
      · exact ⟨0, by omega, by simpa using h⟩
      · exact ⟨i + 1, by omega, by simpa [Nat.add_assoc, Nat.add_comm 1 i] using h⟩
    · rintro ⟨i, hi, h⟩
      cases i with
      | zero => exact .inl (by simpa using h)
      | succ i => exact .inr ⟨i, by omega, by simpa [Nat.add_assoc, Nat.add_comm 1 i] using h⟩

end Sys2Proof.Machine
end

