-- ==== Sys2Proof/Laws/State.lean ====
section
/-! SUPPORT. One lemma per field per update of the state, so that no later proof unfolds a record update. -/

namespace Sys2Proof.Machine

/-! ### The OK end of a command -/

@[simp] theorem State.complete_cmd (s : State) (out : List Byte) : (s.complete out).cmd = s.cmd := rfl
@[simp] theorem State.complete_ilen (s : State) (out : List Byte) : (s.complete out).ilen = s.ilen := rfl
@[simp] theorem State.complete_laddr (s : State) (out : List Byte) : (s.complete out).laddr = s.laddr := rfl
@[simp] theorem State.complete_st (s : State) (out : List Byte) : (s.complete out).st = .ok := rfl
@[simp] theorem State.complete_olen (s : State) (out : List Byte) : (s.complete out).olen = out.length := rfl
@[simp] theorem State.complete_errChar (s : State) (out : List Byte) : (s.complete out).errChar = 0x00 := rfl
@[simp] theorem State.complete_errPos (s : State) (out : List Byte) : (s.complete out).errPos = 0 := rfl
@[simp] theorem State.complete_ldata (s : State) (out : List Byte) : (s.complete out).ldata = s.ldata := rfl
@[simp] theorem State.complete_ibuf (s : State) (out : List Byte) : (s.complete out).ibuf = s.ibuf := rfl
@[simp] theorem State.complete_obuf (s : State) (out : List Byte) : (s.complete out).obuf = Memory.ofBytes out := rfl

/-- `complete` with every field spelled out, the form the statements use. -/
theorem State.complete_eq_okWith (s : State) (out : List Byte) : s.complete out = s.okWith out := rfl

/-! ### The error entry -/

@[simp] theorem State.raise_cmd (s : State) (ch : Byte) (pos : Nat) : (s.raiseInvalidCharacter ch pos).cmd = s.cmd := rfl
@[simp] theorem State.raise_ilen (s : State) (ch : Byte) (pos : Nat) : (s.raiseInvalidCharacter ch pos).ilen = s.ilen := rfl
@[simp] theorem State.raise_laddr (s : State) (ch : Byte) (pos : Nat) : (s.raiseInvalidCharacter ch pos).laddr = s.laddr := rfl
@[simp] theorem State.raise_st (s : State) (ch : Byte) (pos : Nat) : (s.raiseInvalidCharacter ch pos).st = .err := rfl
@[simp] theorem State.raise_olen (s : State) (ch : Byte) (pos : Nat) : (s.raiseInvalidCharacter ch pos).olen = 0 := rfl
@[simp] theorem State.raise_errChar (s : State) (ch : Byte) (pos : Nat) : (s.raiseInvalidCharacter ch pos).errChar = ch := rfl
@[simp] theorem State.raise_errPos (s : State) (ch : Byte) (pos : Nat) : (s.raiseInvalidCharacter ch pos).errPos = pos := rfl
@[simp] theorem State.raise_ldata (s : State) (ch : Byte) (pos : Nat) : (s.raiseInvalidCharacter ch pos).ldata = s.ldata := rfl
@[simp] theorem State.raise_ibuf (s : State) (ch : Byte) (pos : Nat) : (s.raiseInvalidCharacter ch pos).ibuf = s.ibuf := rfl
@[simp] theorem State.raise_obuf (s : State) (ch : Byte) (pos : Nat) : (s.raiseInvalidCharacter ch pos).obuf = [] := rfl

/-- The error entry with every field spelled out, the form the statements use. -/
theorem State.raise_eq_errWith (s : State) (ch : Byte) (pos : Nat) : s.raiseInvalidCharacter ch pos = s.errWith ch pos := rfl

/-! ### The spelled-out forms -/

@[simp] theorem State.okWith_st (s : State) (out : List Byte) : (s.okWith out).st = .ok := rfl
@[simp] theorem State.okWith_olen (s : State) (out : List Byte) : (s.okWith out).olen = out.length := rfl
@[simp] theorem State.okWith_obuf (s : State) (out : List Byte) : (s.okWith out).obuf = Memory.ofBytes out := rfl
@[simp] theorem State.okWith_ibuf (s : State) (out : List Byte) : (s.okWith out).ibuf = s.ibuf := rfl
@[simp] theorem State.okWith_errChar (s : State) (out : List Byte) : (s.okWith out).errChar = 0x00 := rfl
@[simp] theorem State.okWith_errPos (s : State) (out : List Byte) : (s.okWith out).errPos = 0 := rfl
@[simp] theorem State.okWith_ldata (s : State) (out : List Byte) : (s.okWith out).ldata = s.ldata := rfl

/-! ### The host's writes -/

@[simp] theorem State.setReg_ibuf (s : State) (r : Reg) (v : Nat) : (s.setReg r v).ibuf = s.ibuf := by cases r <;> rfl
@[simp] theorem State.setReg_obuf (s : State) (r : Reg) (v : Nat) : (s.setReg r v).obuf = s.obuf := by cases r <;> rfl
@[simp] theorem State.setReg_st (s : State) (r : Reg) (v : Nat) : (s.setReg r v).st = s.st := by cases r <;> rfl
@[simp] theorem State.setReg_olen (s : State) (r : Reg) (v : Nat) : (s.setReg r v).olen = s.olen := by cases r <;> rfl
@[simp] theorem State.setReg_errChar (s : State) (r : Reg) (v : Nat) : (s.setReg r v).errChar = s.errChar := by cases r <;> rfl
@[simp] theorem State.setReg_errPos (s : State) (r : Reg) (v : Nat) : (s.setReg r v).errPos = s.errPos := by cases r <;> rfl
@[simp] theorem State.setReg_ldata (s : State) (r : Reg) (v : Nat) : (s.setReg r v).ldata = s.ldata := by cases r <;> rfl

@[simp] theorem State.withFetchWord_cmd (s : State) (n w : Nat) :
    (s.withFetchWord n w).cmd = BitVec.ofNat 8 (w % 2 ^ n) := rfl
@[simp] theorem State.withFetchWord_ilen (s : State) (n w : Nat) : (s.withFetchWord n w).ilen = s.ilen := rfl
@[simp] theorem State.withFetchWord_laddr (s : State) (n w : Nat) : (s.withFetchWord n w).laddr = s.laddr := rfl
@[simp] theorem State.withFetchWord_ibuf (s : State) (n w : Nat) : (s.withFetchWord n w).ibuf = s.ibuf := rfl
@[simp] theorem State.withFetchWord_obuf (s : State) (n w : Nat) : (s.withFetchWord n w).obuf = s.obuf := rfl

end Sys2Proof.Machine
end

