-- ==== Sys2Proof/Laws/Commands.lean ====
section
/-! SUPPORT. What each shared operation and each command can do, said once: the provers cite these lemmas instead of
unfolding the operation. -/

namespace Sys2Proof.Machine

/-! ### Fetching the operand -/

/-- `withOperand` answers a next state exactly when the operand is fetched, and then it is `run` of it. -/
theorem withOperand_eq_next {p : Params} {s t : State} {run : List Byte → State} :
    withOperand p s run = .next t ↔ ∃ operand, OperandIs p s operand ∧ t = run operand := by
  rw [withOperand]
  constructor
  · intro h
    split at h
    · cases h
    · split at h
      · rename_i hle operand hread
        obtain ⟨hlen, hbytes⟩ := (Memory.readFrom_eq_some _ _ _ _).mp hread
        cases h
        exact ⟨operand, ⟨hlen.symm, by omega, fun i hi => by simpa using hbytes i (by omega)⟩, rfl⟩
      · cases h
  · rintro ⟨operand, ⟨hlen, hle, hbytes⟩, rfl⟩
    have hread : Memory.readFrom s.ibuf 0 s.ilen = some operand :=
      (Memory.readFrom_eq_some _ _ _ _).mpr ⟨hlen.symm, fun i hi => by simpa using hbytes i (by omega)⟩
    rw [if_neg (by omega), hread]

/-- `withOperand` never faults. -/
theorem withOperand_ne_fault (p : Params) (s : State) (run : List Byte → State) (f : Fault) :
    withOperand p s run ≠ .fault f := by
  rw [withOperand]
  split
  · simp
  · split <;> simp

/-- `withOperand` is refused exactly when the length is out of range or an operand byte has no value. -/
theorem withOperand_refused_iff (p : Params) (s : State) (run : List Byte → State) :
    (∃ r, withOperand p s run = .refused r) ↔ p.nMax < s.ilen ∨ ∃ a < s.ilen, Memory.read s.ibuf a = none := by
  rw [withOperand]
  have hnone := Memory.readFrom_eq_none s.ibuf 0 s.ilen
  simp only [Nat.zero_add] at hnone
  split
  · rename_i h; simp [h]
  · rename_i h
    split
    · rename_i operand hread
      rw [hread] at hnone
      simp only [reduceCtorEq, false_iff] at hnone
      simp [h, hnone]
    · rename_i hread
      simp only [Host.Outcome.refused.injEq, exists_eq', true_iff]
      exact .inr (hnone.mp hread)

/-! ### The commands -/

/-- What ENC and ENCS can answer as a next state. -/
theorem encodeCommand_eq_next {p : Params} {withSep : Bool} {s t : State} :
    encodeCommand p withSep s = .next t ↔
      ∃ payload, OperandIs p s payload ∧ t = s.complete (encodedText p.sep withSep payload) := withOperand_eq_next

/-- What VAL can answer as a next state. -/
theorem validateCommand_eq_next {p : Params} {s t : State} :
    validateCommand p s = .next t ↔ ∃ text, OperandIs p s text ∧ t = validated p.sep s text [] := withOperand_eq_next

/-- What DEC can answer as a next state. -/
theorem decodeCommand_eq_next {p : Params} {s t : State} :
    decodeCommand p s = .next t ↔
      ∃ text, OperandIs p s text ∧ t = validated p.sep s text (decodedBytes p text) := withOperand_eq_next

/-- What LUTRD can answer as a next state. -/
theorem lookupCommand_eq_next {p : Params} {s t : State} :
    lookupCommand p s = .next t ↔ ∃ word, lut p.sep s.laddr = some word ∧ t = { s.complete [] with ldata := word } := by
  rw [lookupCommand]
  split
  · rename_i word h
    simp [h, eq_comm]
  · rename_i h
    simp [h]

/-! ### The validation scan -/

/-- The scan finds nothing exactly when every character passes. -/
theorem scanFrom_eq_none (sep : Byte) (pos : Nat) (text : List Byte) :
    scanFrom sep pos text = none ↔ ∀ x ∈ text, dec sep x ≠ .invalid := by
  induction text generalizing pos with
  | nil => simp [scanFrom]
  | cons x rest ih =>
    rw [scanFrom]
    cases h : dec sep x <;> simp [DecWord.passes, h, ih]

/-- A text of characters that all pass has no first invalid one. -/
theorem firstInvalid_eq_none (sep : Byte) (text : List Byte) :
    firstInvalid sep text = none ↔ ∀ x ∈ text, dec sep x ≠ .invalid := scanFrom_eq_none sep 1 text

/-- What the scan finds: an invalid character, at its position, with everything before it passing. -/
theorem scanFrom_eq_some (sep : Byte) (pos : Nat) (text : List Byte) (ch : Byte) (found : Nat)
    (h : scanFrom sep pos text = some (ch, found)) :
    ∃ k, found = pos + k ∧ text[k]? = some ch ∧ dec sep ch = .invalid ∧ ∀ x ∈ text.take k, dec sep x ≠ .invalid := by
  induction text generalizing pos with
  | nil => simp [scanFrom] at h
  | cons x rest ih =>
    rw [scanFrom] at h
    split at h
    · rename_i hx
      obtain ⟨k, hk, hch, hinv, hbefore⟩ := ih (pos + 1) h
      refine ⟨k + 1, by omega, by simpa using hch, hinv, ?_⟩
      intro y hy
      rcases List.mem_cons.mp (by simpa using hy) with rfl | hy
      · intro hbad; simp [DecWord.passes, hbad] at hx
      · exact hbefore y hy
    · rename_i hx
      obtain ⟨rfl, rfl⟩ : x = ch ∧ pos = found := by simpa using h
      refine ⟨0, rfl, rfl, ?_, by simp⟩
      cases hw : dec sep x <;> simp_all [DecWord.passes]

/-- The two ends of a command that validates first. -/
theorem validated_cases (sep : Byte) (s : State) (text out : List Byte) :
    (firstInvalid sep text = none ∧ validated sep s text out = s.complete out) ∨
    (∃ ch pos, firstInvalid sep text = some (ch, pos) ∧ validated sep s text out = s.raiseInvalidCharacter ch pos) := by
  rw [validated]
  split
  · rename_i ch pos h; exact .inr ⟨ch, pos, h, rfl⟩
  · rename_i h; exact .inl ⟨h, rfl⟩

/-! ### The host's moves -/

/-- A read leaves the state when it returns a value, and only then. -/
theorem afterRead_eq_next {s t : State} {answer : Except Fault Byte} :
    afterRead s answer = .next t ↔ t = s ∧ ∃ v, answer = .ok v := by
  cases answer <;> simp [afterRead, eq_comm]

/-- A host program continues where its first move leaves the state. -/
theorem runMoves_cons_of_next {m : HostMove} {s t : State} (h : hostMove m s = .next t) (rest : List HostMove) :
    runMoves (m :: rest) s = runMoves rest t := by
  rw [runMoves, h]

/-- A host program whose last move is START gives what that step gives. -/
theorem runMoves_start (s : State) : runMoves [.start] s = step s := by
  simp only [runMoves, hostMove]
  split <;> simp_all

/-! ### Lengths -/

@[simp] theorem decodedBytes_length (p : Params) (text : List Byte) :
    (decodedBytes p text).length = byteCount (dataCount (isFormatted p.sep text) text.length) := by
  simp [decodedBytes]

end Sys2Proof.Machine
end

