-- ==== Sys2Proof/Laws/Params.lean ====
section
/-! SUPPORT. The parameters: what a legal separator is not, and the width that holds a length. -/

namespace Sys2Proof

/-- The spec's default separator is legal (00_scope.md R7). -/
theorem Config.defaultSep_legal : Machine.sepLegal Config.defaultSep = true := by decide

/-- A legal separator's slot is invalid before step 6 (00_scope.md R7 (a)). -/
theorem Machine.sepLegal_slot {c : Byte} (h : Machine.sepLegal c = true) : Machine.decStep5 c = .invalid := by
  simp only [Machine.sepLegal, Bool.and_eq_true, beq_iff_eq] at h
  exact h.1.1.1

/-- The ROM word of any other character does not depend on the separator (40_lut.md R107). -/
theorem Machine.dec_of_ne {sep x : Byte} (h : x ≠ sep) : Machine.dec sep x = Machine.decStep5 x := by
  simp [Machine.dec, h]

/-- The ROM word of the separator (40_lut.md R105). -/
@[simp] theorem Machine.dec_sep (sep : Byte) : Machine.dec sep sep = .ignorable := by simp [Machine.dec]

/-- The width a number needs holds it (00_scope.md R6). -/
theorem lt_two_pow_bitsFor (n : Nat) : n < 2 ^ bitsFor n := by
  rw [bitsFor]
  split
  · simp [*]
  · exact Nat.lt_log2_self

end Sys2Proof
end

