-- ==== Sys2Proof/Laws/PerInstr.lean ====
section
/-! SUPPORT. The family CommandWord: the word of a well-formed command has the legal fields of 30_encoding.md Table 30-1, and
the operation number and option that Table 30-2 gives the command. -/

namespace Sys2Proof.Laws.CommandWord

/-- The `OP` column of Table 30-2 (30_encoding.md R72). -/
def opOf : Instr → BitVec 2
  | .enc | .encs => 0
  | .dec => 1
  | .val => 2
  | .lutrd => 3

/-- The `S` column of Table 30-2 (30_encoding.md R72). -/
def optionOf : Instr → BitVec 1
  | .encs => 1
  | .enc | .dec | .val | .lutrd => 0

/-- The command's word has legal fields, and they are the table's. -/
def Statement (i : Instr) : Prop :=
  i.wellFormed = true →
    (fieldsOf (encode i)).legal = true ∧ (fieldsOf (encode i)).op = opOf i ∧ (fieldsOf (encode i)).s = optionOf i

theorem enc : Statement .enc := fun _ => by decide
theorem encs : Statement .encs := fun _ => by decide
theorem dec : Statement .dec := fun _ => by decide
theorem val : Statement .val := fun _ => by decide
theorem lutrd : Statement .lutrd := fun _ => by decide

end Sys2Proof.Laws.CommandWord
end

