-- ==== Sys2Proof/Tests/Slice0.lean ====
section
/-! SUPPORT. Small tests. Expected results are the spec's: 95_test_vectors.md, Table 40-2, Table 30-2 and the worked examples;
each names its source. The second half holds, for every statement with hypotheses, a state and operands that meet them. -/

namespace Sys2Proof.Tests

open Sys2Proof.Machine

/-- The parameters of every derived vector: `SEP` = '-', `N_MAX` = 64 (95_test_vectors.md section 0); `SEP_AS_DATA` = 16 is one of
the sample values of section 2.5. -/
def vectors : Params := { sep := 0x2D, sepAsData := 16, nMax := 64 }

/-- The reset state with a command word in `CMD` and an operand in `IBUF` and `ILEN`. -/
def stateWith (cmd : Byte) (operand : List Byte) : State :=
  { State.reset with cmd := cmd, ilen := operand.length, ibuf := Memory.ofBytes operand }

/-- The reset state with a lookup address in `LADDR`. -/
def lookupState (a : BitVec 9) : State := { State.reset with cmd := 0x03, laddr := a }

/-- The result registers and output bytes of an outcome that is a next state. -/
def results (r : Result) : Option (Status × Nat × Byte × Nat × List Byte) :=
  (nextState? r).map fun t => (t.st, t.olen, t.errChar, t.errPos, t.obuf.map Prod.snd)

/-- "yy.yy" (95 S3). -/
def badText : List Byte := [0x79, 0x79, 0x2E, 0x79, 0x79]

/-- "pb1sa5dx-rr" (95 section 2.2). -/
def dashedText : List Byte := [0x70, 0x62, 0x31, 0x73, 0x61, 0x35, 0x64, 0x78, 0x2D, 0x72, 0x72]

/-- "hello!" as bytes (95 section 2.2). -/
def hello : List Byte := [0x68, 0x65, 0x6C, 0x6C, 0x6F, 0x21]

/-! ### Well-formedness smoke: each check refuses an ill-formed term -/

theorem test_reserved_bits_ill_formed :
    CommandFields.reservedZero ⟨1, 0, 0⟩ = false ∧ CommandFields.legal ⟨1, 0, 0⟩ = false ∧
    CommandFields.reservedZero ⟨0b10000, 0, 0⟩ = false := by decide

theorem test_option_ill_formed :
    CommandFields.optionLegal ⟨0, 1, 1⟩ = false ∧ CommandFields.optionLegal ⟨0, 1, 2⟩ = false ∧
    CommandFields.optionLegal ⟨0, 1, 3⟩ = false ∧ CommandFields.legal ⟨0, 1, 1⟩ = false ∧
    CommandFields.legal ⟨0, 1, 0⟩ = true := by decide

/-- 00_scope.md R7: an alphabet character, a correction character, an uppercase alias and '.' are no separators. -/
theorem test_separator_ill_formed :
    sepLegal 0x79 = false ∧ sepLegal 0x6C = false ∧ sepLegal 0x41 = false ∧ sepLegal 0x2E = false ∧
    sepLegal 0x2D = true := by decide

theorem test_instr_well_formed : ∀ i ∈ [Instr.enc, .encs, .dec, .val, .lutrd], i.wellFormed = true := by decide

/-! ### Decoding: words written out from Table 30-2 -/

theorem test_decode_enc : decode 0b00000000#8 = .ok .enc := rfl
theorem test_decode_encs : decode 0b00000100#8 = .ok .encs := rfl
theorem test_decode_dec : decode 0b00000001#8 = .ok .dec := rfl
theorem test_decode_val : decode 0b00000010#8 = .ok .val := rfl
theorem test_decode_lutrd : decode 0b00000011#8 = .ok .lutrd := rfl

/-- 95 section 2.7: 0x05 is not "DEC with separators"; 0x08, 0x80 and 0xFF have `RSV` not 0. -/
theorem test_decode_reserved :
    decode 0x05 = .error .optionWithoutEncode ∧ decode 0x07 = .error .optionWithoutEncode ∧
    decode 0x08 = .error .reservedBits ∧ decode 0x80 = .error .reservedBits ∧ decode 0xFF = .error .reservedBits :=
  ⟨rfl, rfl, rfl, rfl, rfl⟩

theorem test_table_words :
    [0x00, 0x04, 0x01, 0x02, 0x03].map (decodeTableWord 8) =
      [some .enc, some .encs, some .dec, some .val, some .lutrd] := by decide

/-- Each command runs as the first one after reset. -/
theorem test_first_command_after_reset :
    ∀ w ∈ [0x00, 0x04, 0x01, 0x02, 0x03], (nextState? (step (State.reset.withFetchWord 8 w))).isSome = true := by decide

/-! ### The ROMs -/

/-- 40_lut.md Table 40-2, the whole decode ROM for `SEP` = 0x2D, rows 0_ to F_. -/
def table40_2 : List Nat :=
  List.replicate 32 0xFF ++
  [0xFF, 0xFF, 0xFF, 0xFF, 0xFF, 0xFF, 0xFF, 0xFF, 0xFF, 0xFF, 0xFF, 0xFF, 0xFF, 0xFE, 0xFF, 0xFF] ++
  [0x10, 0x12, 0x17, 0x19, 0x1A, 0x1B, 0x1E, 0x1D, 0x07, 0x1F, 0xFF, 0xFF, 0xFF, 0xFF, 0xFF, 0xFF] ++
  [0xFF, 0x18, 0x01, 0x0C, 0x03, 0x08, 0x05, 0x06, 0x1C, 0x15, 0x09, 0x0A, 0x12, 0x0B, 0x02, 0x10] ++
  [0x0D, 0x0E, 0x04, 0x16, 0x11, 0x13, 0x13, 0x14, 0x0F, 0x00, 0x17, 0xFF, 0xFF, 0xFF, 0xFF, 0xFF] ++
  [0xFF, 0x18, 0x01, 0x0C, 0x03, 0x08, 0x05, 0x06, 0x1C, 0x15, 0x09, 0x0A, 0x12, 0x0B, 0x02, 0x10] ++
  [0x0D, 0x0E, 0x04, 0x16, 0x11, 0x13, 0x13, 0x14, 0x0F, 0x00, 0x17, 0xFF, 0x12, 0xFF, 0xFF, 0xFF] ++
  List.replicate 128 0xFF

set_option maxRecDepth 4000 in
/-- The six steps of R101 to R105 give Table 40-2 (40_lut.md R107). -/
theorem test_decode_rom_is_table :
    (List.range 256).map (fun x => (dec 0x2D (BitVec.ofNat 8 x)).code.toNat) = table40_2 := by decide +kernel

/-- 40_lut.md Table 40-1, corner rows. -/
theorem test_alphabet_rom : alpha 0 = 0x79 ∧ alpha 7 = 0x38 ∧ alpha 18 = 0x31 ∧ alpha 28 = 0x68 ∧ alpha 31 = 0x39 := by decide

/-- 95 section 2.1: both ends of both ROM windows and of the reserved range. -/
theorem test_lut_map :
    lut 0x2D 0x000 = some 0x79 ∧ lut 0x2D 0x01F = some 0x39 ∧ lut 0x2D 0x020 = none ∧ lut 0x2D 0x0FF = none ∧
    lut 0x2D 0x100 = some 0xFF ∧ lut 0x2D 0x12D = some 0xFE ∧ lut 0x2D 0x1FF = some 0xFF := by decide

/-! ### LUTRD -/

/-- 40_lut.md R111: `LUTRD 0x168` gives `LDATA` = 0x1C, `ST` = OK. -/
theorem test_lutrd_h :
    (nextState? (lookupCommand vectors (lookupState 0x168))).map (fun t => (t.ldata, t.st, t.olen)) =
      some (0x1C, .ok, 0) := by decide

/-- 95 section 2.7: LUTRD does not read `ILEN`: 65 with `N_MAX` = 64 is not refused, `LDATA` = 0x39. -/
theorem test_lutrd_ignores_ilen :
    (nextState? (lookupCommand vectors { lookupState 0x01F with ilen := 65 })).map (·.ldata) = some 0x39 := by decide

/-! ### ENC and ENCS -/

/-- 95 S1: `ENC [FF]` gives "9h". -/
theorem test_enc_ff : results (encodeCommand vectors false (stateWith 0x00 [0xFF])) = some (.ok, 2, 0x00, 0, [0x39, 0x68]) := by
  decide

/-- 95 section 2.2: `ENC [DE AD BE EF]` gives "54s575a", three padding bits. -/
theorem test_enc_tail_of_four :
    results (encodeCommand vectors false (stateWith 0x00 [0xDE, 0xAD, 0xBE, 0xEF])) =
      some (.ok, 7, 0x00, 0, [0x35, 0x34, 0x73, 0x35, 0x37, 0x35, 0x61]) := by decide

/-- 95 section 2.2, worked bit by bit: `ENCS [68 65 6C 6C 6F 21]` gives "pb1sa5dx-rr". -/
theorem test_encs_first_separator :
    results (encodeCommand vectors true (stateWith 0x04 hello)) = some (.ok, 11, 0x00, 0, dashedText) := by decide

/-- 95 section 2.2: five bytes give 8 characters and no trailing separator: `ENCS [00 44 32 14 C7]` gives "ybndrfg8". -/
theorem test_encs_no_trailing_separator :
    results (encodeCommand vectors true (stateWith 0x04 [0x00, 0x44, 0x32, 0x14, 0xC7])) =
      some (.ok, 8, 0x00, 0, [0x79, 0x62, 0x6E, 0x64, 0x72, 0x66, 0x67, 0x38]) := by decide

/-! ### DEC and VAL -/

/-- 95 section 2.3, worked bit by bit: `DEC "ybndrfg8-ej"` gives 00 44 32 14 C7 42. -/
theorem test_dec_formatted :
    results (decodeCommand vectors
      (stateWith 0x01 [0x79, 0x62, 0x6E, 0x64, 0x72, 0x66, 0x67, 0x38, 0x2D, 0x65, 0x6A])) =
      some (.ok, 6, 0x00, 0, [0x00, 0x44, 0x32, 0x14, 0xC7, 0x42]) := by decide

/-- 95 Program 5: `DEC "yy-yy"` gives 00, `2 * SEP_AS_DATA`, 00, for 16 that is 0x20; 95 section 2.4: "ybndrfg8-ejkmcpqx.ot",
invalid at the skip position 17, is an error at position 18. -/
theorem test_dec_misplaced_and_invalid :
    results (decodeCommand vectors (stateWith 0x01 [0x79, 0x79, 0x2D, 0x79, 0x79])) =
      some (.ok, 3, 0x00, 0, [0x00, 0x20, 0x00]) ∧
    results (decodeCommand vectors (stateWith 0x01
      [0x79, 0x62, 0x6E, 0x64, 0x72, 0x66, 0x67, 0x38, 0x2D, 0x65, 0x6A, 0x6B, 0x6D, 0x63, 0x70, 0x71, 0x78, 0x2E, 0x6F,
       0x74])) = some (.err, 0, 0x2E, 18, []) :=
  ⟨by decide, by decide⟩

/-- 95 S3: `VAL "yy.yy"` cites '.' at position 3. -/
theorem test_val_invalid : results (validateCommand vectors (stateWith 0x02 badText)) = some (.err, 0, 0x2E, 3, []) := by decide

/-- 95 section 2.6: nine separators pass. -/
theorem test_val_separators_only :
    results (validateCommand vectors (stateWith 0x02 (List.replicate 9 0x2D))) = some (.ok, 0, 0x00, 0, []) := by decide

/-! ### Refused starts, and the machine's own step -/

/-- 95 section 2.7: `ILEN` = 65 with `N_MAX` = 64, and an operand byte never written. -/
theorem test_refused_lengths :
    refusal? (decodeCommand vectors { State.reset with cmd := 0x01, ilen := 65 }) = some (.lengthOutOfRange 65) ∧
    refusal? (validateCommand vectors { State.reset with cmd := 0x02, ilen := 1 }) = some .unwrittenOperand := by decide

/-- 95 section 2.7: LUTRD of 0x020 and 0x0FF, and a START of 0x05. -/
theorem test_refused_words :
    refusal? (lookupCommand vectors (lookupState 0x020)) = some (.reservedLutAddress 0x020) ∧
    refusal? (lookupCommand vectors (lookupState 0x0FF)) = some (.reservedLutAddress 0x0FF) ∧
    refusal? (step { State.reset with cmd := 0x05 }) = some (.reservedCommand 0x05 .optionWithoutEncode) := by decide

/-- 95 Program 1 step 2, through `step`, on the block that has the vectors' parameters. -/
theorem test_step_encs (h : Config.params = vectors) :
    results (step (stateWith 0x04 hello)) = some (.ok, 11, 0x00, 0, dashedText) := by
  show results (encodeCommand Config.params true (stateWith 0x04 hello)) = _
  rw [h]
  decide

/-- 95 Program 1 step 4: the copy back and DEC give the payload. -/
theorem test_copy_back_decodes :
    (nextState? (encodeCommand vectors true (stateWith 0x04 hello))).bind
      (fun t => results (decodeCommand vectors t.copyBack)) = some (.ok, 6, 0x00, 0, hello) := by decide

/-- 95 section 0: `N_MAX` = 64 gives `O_MAX` = 115, `W_LEN` = 7, `W_OLEN` = 7. -/
theorem test_derived_parameters : vectors.oMax = 115 ∧ vectors.wLen = 7 ∧ vectors.wOlen = 7 ∧ vectors.legal = true := by decide

/-- 95 Program 4 step 5: after `ENC [FF]`, `OBUF[1]` is 0x68 and a read of `OBUF[2]` faults. -/
theorem test_host_reads_obuf :
    (nextState? (encodeCommand vectors false (stateWith 0x00 [0xFF]))).map
      (fun t => (decide ((hostReadObuf 1 t).toOption = some 0x68), (hostReadObuf 2 t).toOption)) = some (true, none) := by decide

/-- 95 Program 2 step 2: after `VAL "yy.yy"` the host reads `ST` 2, `OLEN` 0, `ERR_CHAR` 0x2E, `ERR_POS` 3. -/
theorem test_host_reads_error :
    (nextState? (validateCommand vectors (stateWith 0x02 badText))).map
      (fun t => [Reg.st, .olen, .errChar, .errPos].map t.readReg) = some [2, 0, 0x2E, 3] := by decide

/-- 95 Program 3 step 4, as the line `LUTRD 0x168` of a host program, on the block that has the vectors' parameters: `LDATA` reads 0x1C. -/
theorem test_lookup_line (h : Config.params = vectors) :
    (nextState? (runMoves (lookupLine 0x168) State.reset)).map (fun t => t.readReg .ldata) = some 0x1C := by
  show (nextState? (runMoves [.start] { State.reset with laddr := 0x168, cmd := 0x03 })).map _ = _
  rw [runMoves_start]
  show (nextState? (lookupCommand Config.params { State.reset with laddr := 0x168, cmd := 0x03 })).map _ = _
  rw [h]
  decide

/-- 10_state.md R25: numbers and rights of Table 10-1. -/
theorem test_register_table :
    [Reg.cmd, .ilen, .laddr, .st, .olen, .errChar, .errPos, .ldata].map
      (fun r => (r.number, r.width vectors, r.hostWritable)) =
      [(0, 8, true), (1, 7, true), (2, 9, true), (3, 2, false), (4, 7, false), (5, 8, false), (6, 7, false), (7, 8, false)] := by
  decide

/-! ### Witnesses: every statement's hypotheses can be met

A statement over `OperandIs Config.params` is met by the empty operand on every block, and by a longer operand on every block
whose `N_MAX` admits it (00_scope.md R6: `N_MAX` is any natural number); the statements over `p` are met with `vectors`. -/

theorem witness_CommandMapIsTable_reserved :
    (0x05 : Byte) ≠ 0x00 ∧ (0x05 : Byte) ≠ 0x04 ∧ (0x05 : Byte) ≠ 0x01 ∧ (0x05 : Byte) ≠ 0x02 ∧ (0x05 : Byte) ≠ 0x03 := by decide

theorem witness_ReservedWordsRefused :
    (0x05#8 ≤ 0x05#8 ∧ 0x05#8 ≤ 0x07#8) ∧ (0x05#8 ≤ 0x07#8 ∧ 0x07#8 ≤ 0x07#8) ∧ 0x08#8 ≤ 0x08#8 ∧ 0x08#8 ≤ 0xFF#8 := by decide

theorem witness_StepRunsDecodedCommand : decode State.reset.cmd = .ok .enc ∧ Instr.enc.wellFormed = true := ⟨rfl, rfl⟩

theorem witness_LutrdFollowsAddressMap :
    (lookupState 0x01F).laddr ≤ 0x01F#9 ∧ (0x020#9 ≤ (lookupState 0x020).laddr ∧ (lookupState 0x020).laddr ≤ 0x0FF#9) ∧
    (0x020#9 ≤ (lookupState 0x0FF).laddr ∧ (lookupState 0x0FF).laddr ≤ 0x0FF#9) ∧ 0x100#9 ≤ (lookupState 0x100).laddr := by decide

theorem witness_LutrdCompletes :
    ((lookupState 0x000).laddr ≤ 0x01F#9 ∨ 0x100#9 ≤ (lookupState 0x000).laddr) ∧
    ((lookupState 0x1FF).laddr ≤ 0x01F#9 ∨ 0x100#9 ≤ (lookupState 0x1FF).laddr) := by decide

/-- For the statements over legal parameters: the vectors' parameters, and a letter at each end for the range of R104. -/
theorem witness_legal_parameters :
    vectors.legal = true ∧ (0x61#8 ≤ 0x61#8 ∧ 0x61#8 ≤ 0x7A#8) ∧ (0x61#8 ≤ 0x7A#8 ∧ 0x7A#8 ≤ 0x7A#8) ∧
    (0x30#8 ≤ 0x30#8 ∧ 0x39#8 ≤ 0x39#8) := by decide

theorem witness_SliceIsBitStreamField :
    1 < dataCharCount [0xFF#8].length ∧ 1 < 5 * dataCharCount [0xFF#8].length - 8 * [0xFF#8].length ∧
    0 + 1 < dataCharCount [0xFF#8].length := by decide

theorem witness_EncodeGroupWiring :
    0x68#8 = hello.getD (5 * 0) 0 ∧ 0x65#8 = hello.getD (5 * 0 + 1) 0 ∧ 0x6C#8 = hello.getD (5 * 0 + 2) 0 ∧
    0x6C#8 = hello.getD (5 * 0 + 3) 0 ∧ 0x6F#8 = hello.getD (5 * 0 + 4) 0 := by decide

theorem witness_PartialGroupTail :
    hello.length = 5 * 1 + 1 ∧ (hello.take 2).length = 5 * 0 + 2 ∧ (hello.take 3).length = 5 * 0 + 3 ∧
    (hello.take 4).length = 5 * 0 + 4 := by decide

/-- EncodedLengthFormula: six bytes with N_MAX = 64, and N_MAX reached, by three bytes on a block with N_MAX = 3. -/
theorem witness_EncodedLengthFormula :
    (OperandIs vectors (stateWith 0x04 hello) hello ∧ ∃ t, runWith vectors .enc (stateWith 0x04 hello) = .next t) ∧
    OperandIs { vectors with nMax := 3 } (stateWith 0x04 (hello.take 3)) (hello.take 3) ∧
    (∃ t, runWith { vectors with nMax := 3 } .encs (stateWith 0x04 (hello.take 3)) = .next t) ∧
    (hello.take 3).length = ({ vectors with nMax := 3 } : Params).nMax :=
  ⟨⟨by decide, _, rfl⟩, by decide, ⟨_, rfl⟩, rfl⟩

theorem witness_SeparatorsNeverTrailNorTouch :
    vectors.legal = true ∧
    ∃ t, runWith vectors .encs (stateWith 0x04 hello) = .next t ∧ 9 ≤ t.olen ∧ Memory.read t.obuf 8 = some vectors.sep :=
  ⟨by decide, _, rfl, by decide, by decide⟩

/-- EncCompletes, EncsCompletes, ValCompletes and DecCompletes, on every block. -/
theorem witness_operand_empty : OperandIs Config.params State.reset [] ∧ AllPass Config.params [] :=
  ⟨⟨rfl, Nat.zero_le _, fun _ h => absurd h (Nat.not_lt_zero _)⟩, fun _ h => absurd h List.not_mem_nil⟩

/-- EncCompletes and EncsCompletes, with a payload that gets a separator, on every block that admits six bytes. -/
theorem witness_operand_payload (h : 6 ≤ Config.params.nMax) : OperandIs Config.params (stateWith 0x04 hello) hello :=
  ⟨rfl, h, by decide⟩

/-- DecCompletes and ValCompletes, with a formatted text, on the block that has the vectors' parameters. -/
theorem witness_operand_text (h : Config.params = vectors) :
    OperandIs Config.params (stateWith 0x01 dashedText) dashedText ∧ AllPass Config.params dashedText ∧
    9 ≤ dashedText.length ∧ dashedText[8]? = some Config.params.sep := by
  rw [h]
  decide

theorem witness_EncodingNeverFails :
    State.reset.ilen ≤ Config.params.nMax ∧ ∀ a < State.reset.ilen, (Memory.read State.reset.ibuf a).isSome = true :=
  ⟨Nat.zero_le _, fun _ h => absurd h (Nat.not_lt_zero _)⟩

theorem witness_EncodingNeverFails_nonempty (h : 6 ≤ Config.params.nMax) :
    (stateWith 0x00 hello).ilen ≤ Config.params.nMax ∧
    ∀ a < (stateWith 0x00 hello).ilen, (Memory.read (stateWith 0x00 hello).ibuf a).isSome = true := ⟨h, by decide⟩

theorem witness_EmptyInputGivesEmptyOutput : State.reset.ilen = 0 := rfl

theorem witness_FirstInvalidCharacterIsRaised :
    OperandIs vectors (stateWith 0x02 badText) badText ∧ badText[2]? = some 0x2E ∧ dec vectors.sep 0x2E = .invalid ∧
    AllPass vectors (badText.take 2) := by decide

/-- ValAndDecAgree: both premises occur, on the block that has the vectors' parameters. -/
theorem witness_ValAndDecAgree (h : Config.params = vectors) :
    (results (exec .val (stateWith 0x02 badText))).map Prod.fst = some .err ∧
    (results (exec .dec (stateWith 0x01 badText))).map Prod.fst = some .err ∧
    (results (exec .val (stateWith 0x02 dashedText))).map Prod.fst = some .ok := by
  show (results (validateCommand Config.params (stateWith 0x02 badText))).map Prod.fst = some .err ∧
    (results (decodeCommand Config.params (stateWith 0x01 badText))).map Prod.fst = some .err ∧
    (results (validateCommand Config.params (stateWith 0x02 dashedText))).map Prod.fst = some .ok
  rw [h]
  decide

theorem witness_ValAndDecAgree_ok : (results (exec .val State.reset)).map Prod.fst = some .ok := by decide

theorem witness_SeparatorPassesAnywhere :
    OperandIs vectors (stateWith 0x02 [0x79, 0x2D, 0x2D]) [0x79, 0x2D, 0x2D] ∧
    ∀ x ∈ [0x79#8, 0x2D, 0x2D], x = vectors.sep ∨ ∃ v, dec vectors.sep x = .value v :=
  ⟨by decide, by
    intro x hx
    simp only [List.mem_cons, List.not_mem_nil, or_false] at hx
    rcases hx with rfl | rfl | rfl
    · exact .inr ⟨0, rfl⟩
    · exact .inl rfl
    · exact .inl rfl⟩

/-- DecodedLengthForEveryText: a formatted text, and an unformatted one of length 9. -/
theorem witness_DecodedLengthForEveryText :
    (OperandIs vectors (stateWith 0x01 dashedText) dashedText ∧ AllPass vectors dashedText ∧
      9 ≤ dashedText.length ∧ dashedText[8]? = some vectors.sep) ∧
    OperandIs vectors (stateWith 0x01 (List.replicate 9 0x79)) (List.replicate 9 0x79) ∧
    AllPass vectors (List.replicate 9 0x79) ∧
    ¬ (9 ≤ (List.replicate 9 0x79#8).length ∧ (List.replicate 9 0x79#8)[8]? = some vectors.sep) := by decide

theorem witness_UnpackedByteIsBitStreamField : 8 * 0 + 8 ≤ 5 * ([31, 28] : List Value5).length := by decide

theorem witness_DecodeGroupWiring : ∀ g n : Nat, 0x1F#8 = ((fun _ => 31#5) (8 * g + n) : Value5).setWidth 8 := fun _ _ => rfl

/-- SepAsDataReachesOnlyItsBytes: "yy-yy", whose byte 0 holds no bit of the separator. -/
theorem witness_SepAsDataReachesOnlyItsBytes :
    let text : List Byte := [0x79, 0x79, 0x2D, 0x79, 0x79]
    let other : Params := { vectors with sepAsData := 31 }
    other.sep = vectors.sep ∧ other.nMax = vectors.nMax ∧ OperandIs vectors (stateWith 0x01 text) text ∧
    (∃ t, runWith vectors .dec (stateWith 0x01 text) = .next t ∧ 0 < t.olen) ∧
    (∃ u, runWith other .dec (stateWith 0x01 text) = .next u) ∧
    ∀ k < 2, 8 * 0 / 5 ≤ k → k ≤ (8 * 0 + 7) / 5 → text[dataIndex (isFormatted vectors.sep text) k]? ≠ some vectors.sep :=
  ⟨rfl, rfl, by decide, ⟨_, rfl, by decide⟩, ⟨_, rfl⟩, by decide⟩

/-- LaterSkipPositionsUnread: the texts of 95 section 2.3 that differ at index 17 only. -/
theorem witness_LaterSkipPositionsUnread :
    let text : Byte → List Byte := fun x =>
      [0x79, 0x62, 0x6E, 0x64, 0x72, 0x66, 0x67, 0x38, 0x2D, 0x65, 0x6A, 0x6B, 0x6D, 0x63, 0x70, 0x71, 0x78, x, 0x6F, 0x74]
    (text 0x79).length = (text 0x39).length ∧ (text 0x79)[8]? = some vectors.sep ∧ (text 0x39)[8]? = some vectors.sep ∧
    AllPass vectors (text 0x79) ∧ AllPass vectors (text 0x39) ∧ text 0x79 ≠ text 0x39 ∧
    ∀ i < 20, i % 9 ≠ 8 → (text 0x79)[i]? = (text 0x39)[i]? := by decide

/-- TrailingBitsDroppedUnchecked: "9h" and "99" (95 section 2.3). -/
theorem witness_TrailingBitsDroppedUnchecked :
    let a : List Byte := [0x39, 0x68]
    let b : List Byte := [0x39, 0x39]
    a.length = b.length ∧ isFormatted vectors.sep a = isFormatted vectors.sep b ∧
    2 = dataCount (isFormatted vectors.sep a) a.length ∧ AllPass vectors a ∧ AllPass vectors b ∧
    (bitsOf5 ((List.range 2).map (dataValue vectors a))).take (8 * (5 * 2 / 8)) =
      (bitsOf5 ((List.range 2).map (dataValue vectors b))).take (8 * (5 * 2 / 8)) := by decide

theorem witness_DecodeUndoesEncode :
    vectors.legal = true ∧ OperandIs vectors (stateWith 0x04 hello) hello ∧
    (encodedText vectors.sep true hello).length ≤ vectors.nMax := by decide

/-- VariantsStillDecode: "PBLSA5DX" for "pb1sa5dx" (95 section 2.3). -/
theorem witness_VariantsStillDecode :
    let text : List Byte := [0x50, 0x42, 0x4C, 0x53, 0x41, 0x35, 0x44, 0x58]
    vectors.legal = true ∧ OperandIs vectors (stateWith 0x01 text) text ∧
    List.Forall₂ Variant (encodedText vectors.sep false (hello.take 5)) text := by
  refine ⟨by decide, by decide, ?_⟩
  show List.Forall₂ Variant [0x70, 0x62, 0x31, 0x73, 0x61, 0x35, 0x64, 0x78] _
  repeat' first | exact List.Forall₂.nil | refine List.Forall₂.cons ?_ ?_
  all_goals decide

/-- EveryCommandWritesStatus, OperandsAndLdataUnchanged, ObufDefinedExactlyBelowOlen: every command reaches a next state. -/
theorem witness_exec_next :
    ∀ i ∈ [Instr.enc, .encs, .dec, .val, .lutrd], (nextState? (exec i State.reset)).isSome = true := by decide

/-- OnlyValAndDecRaise and the ERR clause of EveryCommandWritesStatus, on the block that has the vectors' parameters. -/
theorem witness_exec_err (h : Config.params = vectors) :
    (results (exec .val (stateWith 0x02 badText))).map Prod.fst = some .err := by
  show (results (validateCommand Config.params (stateWith 0x02 badText))).map Prod.fst = some .err
  rw [h]
  decide

/-- OutcomeIgnoresEarlierState: another history, the same operands, for a codec command and for LUTRD. -/
theorem witness_OutcomeIgnoresEarlierState :
    let u : State := { State.reset with ldata := 0x39, st := .ok, ibuf := [(0, 0x79)] }
    decode State.reset.cmd = .ok .enc ∧ u.cmd = State.reset.cmd ∧ u.ilen = State.reset.ilen ∧
    (nextState? (step State.reset)).isSome = true ∧ decode (lookupState 0).cmd = .ok .lutrd ∧
    (nextState? (step (lookupState 0))).isSome = true := ⟨rfl, rfl, rfl, rfl, rfl, rfl⟩

theorem witness_ReadyCommandsComplete :
    Ready Config.params .enc State.reset ∧ Ready Config.params .lutrd State.reset :=
  ⟨⟨Nat.zero_le _, fun _ h => absurd h (Nat.not_lt_zero _)⟩, by decide⟩

/-- StepKeepsInvariant and HostProgramsKeepInvariant, on every block: a state with the invariant from which a step gives a
next state. It is also HostReadsObufBelowOlenOnly's for i >= `OLEN`. -/
theorem witness_invariant_on_every_block :
    (lookupState 0x01F).Inv Config.params ∧ (nextState? (step (lookupState 0x01F))).isSome = true ∧
    (lookupState 0x01F).olen ≤ 0 :=
  ⟨{ ibufCanonical := rfl, ibufWithin := by decide, obufDefined := ⟨[], rfl, rfl⟩, olenFits := Nat.zero_le _,
     ilenFits := Nat.two_pow_pos _, errPosFits := Nat.zero_le _, noError := by decide,
     error := fun h => absurd h (by decide), idle := by decide }, rfl, Nat.le_refl _⟩

/-- HostReadsObufBelowOlenOnly for i < `OLEN`, and the invariant with an error-free result, on the block that has the vectors'
parameters: the state ENC leaves for [FF]. -/
theorem witness_HostReadsObufBelowOlenOnly (h : Config.params = vectors) :
    ((stateWith 0x00 [0xFF]).okWith [0x39, 0x68]).Inv Config.params ∧ 1 < ((stateWith 0x00 [0xFF]).okWith [0x39, 0x68]).olen := by
  rw [h]
  exact ⟨{ ibufCanonical := rfl, ibufWithin := by decide, obufDefined := ⟨[0x39, 0x68], rfl, rfl⟩, olenFits := by decide,
           ilenFits := by decide, errPosFits := by decide, noError := by decide, error := by decide, idle := by decide },
    by decide⟩

theorem witness_ReadOnlyWritesHaveNoEffect : Reg.st ≠ .cmd ∧ Reg.st ≠ .ilen ∧ Reg.st ≠ .laddr := by decide

/-- OperandRegisterWrites: both clauses at the boundary of each register's width. -/
theorem witness_OperandRegisterWrites :
    255 < 2 ^ Reg.cmd.width vectors ∧ 2 ^ Reg.cmd.width vectors ≤ 256 ∧ 511 < 2 ^ Reg.laddr.width vectors ∧
    2 ^ Reg.laddr.width vectors ≤ 512 ∧ 127 < 2 ^ Reg.ilen.width vectors ∧ 2 ^ Reg.ilen.width vectors ≤ 128 := by decide

/-- IbufWriteThenRead, a state and an index for each clause: the last index that exists and the first that does not, a byte
written and a byte never written. -/
theorem witness_IbufWriteThenRead :
    63 < vectors.nMax ∧ vectors.nMax ≤ 64 ∧
    Memory.read (stateWith 0x00 [0xFF]).ibuf 0 = some 0xFF ∧ Memory.read (stateWith 0x00 [0xFF]).ibuf 1 = none ∧
    Memory.read State.reset.ibuf 63 = none := by decide

/-- IbufWriteThenRead, the two forms of a host read: a value on the block with the vectors' parameters, and a fault on every
block. -/
theorem witness_IbufWriteThenRead_moves (h : Config.params = vectors) :
    (hostReadIbuf Config.params 0 (stateWith 0x00 [0xFF])).toOption = some 0xFF ∧
    (hostReadIbuf Config.params 64 State.reset).toOption = none := by
  rw [h]
  decide

theorem witness_ProgramLineRunsItsCommand :
    Instr.encs ≠ .lutrd ∧ ([] : List Byte).length ≤ Config.params.nMax ∧ hello.length ≤ vectors.nMax :=
  ⟨by decide, Nat.zero_le _, by decide⟩

/-- RegisterValuesFitWidths: a state with the invariant, with a length register at the top of its range. -/
theorem witness_RegisterValuesFitWidths : State.Inv vectors { State.reset with ilen := 127 } :=
  { ibufCanonical := rfl, ibufWithin := by decide, obufDefined := ⟨[], rfl, rfl⟩, olenFits := by decide,
    ilenFits := by decide, errPosFits := by decide, noError := by decide, error := by decide, idle := by decide }

/-- HostReadsChangeNothing: a state for each of the three codes of `ST`, with the value a host reads (95 Program 2: 0, 2, 1). -/
theorem witness_HostReadsChangeNothing_st :
    (State.reset.st = .idle ∧ State.reset.readReg .st = 0) ∧
    ((State.reset.errWith 0x2E 3).st = .err ∧ (State.reset.errWith 0x2E 3).readReg .st = 2) ∧
    ((State.reset.okWith []).st = .ok ∧ (State.reset.okWith []).readReg .st = 1) := by decide

theorem witness_HostReadsChangeNothing : (nextState? (hostMove (.readReg .st) State.reset)).isSome = true := by decide

end Sys2Proof.Tests
end

-- ==== The block's own parameters ====
section
/-! What the block's own parameters are known to be, and `exec` as the machine at those parameters. -/

namespace Sys2Proof

/-- A chosen `SEP` is kept only when 00_scope.md R7 allows it, and the default that replaces any other is legal (log 1). -/
@[simp] theorem Config.params_legal : Config.params.legal = true := by
  simp only [Params.legal, Config.params]
  split
  case isTrue hchosen => exact hchosen
  case isFalse => exact Config.defaultSep_legal

/-- Carries a claim about every block, stated over `runWith`, to the command itself (00_scope.md R6). -/
theorem Machine.exec_eq_runWith (i : Instr) (s : Machine.State) :
    Machine.exec i s = Machine.runWith Config.params i s := by
  cases i with
  | enc => rfl
  | encs => rfl
  | dec => rfl
  | val => rfl
  | lutrd => rfl

/-- Settles O7: the block's parameters are legal by construction, and each command's meaning is its operation at them. -/
theorem runWithIsExec : Obligations.RunWithIsExec :=
  ⟨Config.params_legal, Machine.exec_eq_runWith⟩

end Sys2Proof
end

-- ==== The length of an output ====
section
/-! How long the output of a command is, and that every output fits `OBUF` (00_scope.md R6, 41_encode.md R138,
42_decode.md R155). -/

namespace Sys2Proof.Machine

/-- Among the data characters before `m`, of `c` in all, a separator follows every eighth one but the last of the text. -/
theorem length_encodedText_upTo (sep : Byte) (withSep : Bool) (payload : List Byte) (c m : Nat) :
    ((List.range m).flatMap fun k => alpha (slice payload k) :: separatorAfter sep withSep c k).length =
      m + if withSep then min m (c - 1) / 8 else 0 := by
  induction m with
  | zero => simp
  | succ m ih =>
    rw [List.range_succ, List.flatMap_append, List.length_append, ih, List.flatMap_singleton, separatorAfter]
    cases withSep with
    | false => simp
    | true =>
      simp only [List.length_cons, true_and, if_true]
      split
      case isTrue hsep => rw [List.length_singleton]; omega
      case isFalse hsep => rw [List.length_nil]; omega

/-- The number of characters ENC and ENCS write (41_encode.md R138). -/
theorem length_encodedText (sep : Byte) (withSep : Bool) (payload : List Byte) :
    (encodedText sep withSep payload).length =
      dataCharCount payload.length + if withSep then (dataCharCount payload.length - 1) / 8 else 0 := by
  rw [encodedText, length_encodedText_upTo, Nat.min_eq_right (Nat.sub_le _ _)]

/-- `O_MAX` is the length of the separated text of `N_MAX` bytes (00_scope.md R6, 41_encode.md R138). -/
theorem oMax_eq (p : Params) : p.oMax = dataCharCount p.nMax + (dataCharCount p.nMax - 1) / 8 := by
  simp only [Params.oMax, dataCharCount]
  split <;> omega

theorem length_encodedText_le_oMax (p : Params) (withSep : Bool) {payload : List Byte} (h : payload.length ≤ p.nMax) :
    (encodedText p.sep withSep payload).length ≤ p.oMax := by
  have hcount : dataCharCount payload.length ≤ dataCharCount p.nMax := by simp only [dataCharCount]; omega
  rw [length_encodedText, oMax_eq]
  split <;> omega

/-- Decoding never lengthens: even `N_MAX` bytes fit `OBUF`, and a text gives no more bytes than it has characters. -/
theorem length_decodedBytes_le_oMax (p : Params) {text : List Byte} (h : text.length ≤ p.nMax) :
    (decodedBytes p text).length ≤ p.oMax := by
  have hcount : dataCount (isFormatted p.sep text) text.length ≤ text.length := by
    rw [dataCount]; split <;> omega
  have hmax : p.nMax ≤ p.oMax := by rw [oMax_eq, dataCharCount]; omega
  rw [decodedBytes_length, byteCount]
  omega

end Sys2Proof.Machine
end

-- ==== How a command ends ====
section
/-! The three ways a command ends, said once: what the statements about every command are derived from. -/

namespace Sys2Proof.Machine

/-- The ends of the command `i` started in `s` on a block with the parameters `p`. `runWith_commandEnd` ties it to the
commands. -/
inductive CommandEnd (p : Params) (i : Instr) (s : State) : State → Prop
  /-- A codec command ends OK with an output that fits `OBUF`; the output of VAL is empty (43_validate.md R183). -/
  | completed (out : List Byte) (hcodec : i ≠ .lutrd) (hfits : out.length ≤ p.oMax) (hval : i = .val → out = []) :
      CommandEnd p i s (s.complete out)
  /-- VAL or DEC raises InvalidCharacter for the invalid operand character at `pos` (60_exceptions.md R195). -/
  | raised (ch : Byte) (pos : Nat) (hraises : i = .val ∨ i = .dec) (hpos : 0 < pos) (hlast : pos ≤ s.ilen)
      (hread : Memory.read s.ibuf (pos - 1) = some ch) (hinvalid : dec p.sep ch = .invalid) (hlen : s.ilen ≤ p.nMax) :
      CommandEnd p i s (s.raiseInvalidCharacter ch pos)
  /-- LUTRD ends OK with the word it looked up in `LDATA` (40_lut.md R111). -/
  | lookedUp (word : Byte) (hlutrd : i = .lutrd) (hword : lut p.sep s.laddr = some word) :
      CommandEnd p i s { s.complete [] with ldata := word }

/-- The operand of a start is no longer than `N_MAX` (10_state.md R27). -/
theorem operandIs_length_le {p : Params} {s : State} {operand : List Byte} (h : OperandIs p s operand) :
    operand.length ≤ p.nMax := by
  obtain ⟨hlen, hmax, -⟩ := h
  exact hlen ▸ hmax

/-- A command that validates first, VAL or DEC, completes or raises at a character of its operand. -/
theorem validated_commandEnd {p : Params} {i : Instr} {s : State} {text : List Byte} (out : List Byte)
    (hoperand : OperandIs p s text) (hi : i = .val ∨ i = .dec) (hfits : out.length ≤ p.oMax) (hval : i = .val → out = []) :
    CommandEnd p i s (validated p.sep s text out) := by
  obtain ⟨hlen, hmax, hbytes⟩ := hoperand
  rcases validated_cases p.sep s text out with ⟨-, hend⟩ | ⟨ch, pos, hfound, hend⟩
  · rw [hend]
    exact .completed out (by rcases hi with rfl | rfl <;> decide) hfits hval
  · obtain ⟨k, rfl, hch, hinvalid, -⟩ := scanFrom_eq_some _ _ _ _ _ hfound
    obtain ⟨hk, -⟩ := List.getElem?_eq_some_iff.mp hch
    rw [hend]
    exact .raised ch (1 + k) hi (by omega) (by omega) (by rw [Nat.add_sub_cancel_left, hbytes k hk, hch]) hinvalid hmax

/-- Every next state of a command is one of its ends. -/
theorem runWith_commandEnd {p : Params} {i : Instr} {s t : State} (h : runWith p i s = .next t) : CommandEnd p i s t := by
  have hencoded (withSep : Bool) (hcodec : i ≠ .lutrd) (hval : i ≠ .val) (h : encodeCommand p withSep s = .next t) :
      CommandEnd p i s t := by
    obtain ⟨payload, hoperand, rfl⟩ := encodeCommand_eq_next.mp h
    exact .completed _ hcodec (length_encodedText_le_oMax p withSep (operandIs_length_le hoperand)) fun hi => absurd hi hval
  cases i with
  | enc => exact hencoded false (by decide) (by decide) h
  | encs => exact hencoded true (by decide) (by decide) h
  | dec =>
    obtain ⟨text, hoperand, rfl⟩ := decodeCommand_eq_next.mp h
    exact validated_commandEnd _ hoperand (.inr rfl) (length_decodedBytes_le_oMax p (operandIs_length_le hoperand)) (by simp)
  | val =>
    obtain ⟨text, hoperand, rfl⟩ := validateCommand_eq_next.mp h
    exact validated_commandEnd [] hoperand (.inl rfl) (Nat.zero_le _) fun _ => rfl
  | lutrd =>
    obtain ⟨word, hword, rfl⟩ := lookupCommand_eq_next.mp h
    exact .lookedUp word rfl hword

/-- Every next state of a command of the block is one of its ends at the block's own parameters. -/
theorem exec_commandEnd {i : Instr} {s t : State} (h : exec i s = .next t) : CommandEnd Config.params i s t :=
  runWith_commandEnd (exec_eq_runWith i s ▸ h)

end Sys2Proof.Machine
end

-- ==== One step ====
section
/-! A step is the command its word names. -/

namespace Sys2Proof.Machine

/-- Every command is decoded from its own word (30_encoding.md R72). -/
@[simp] theorem decode_encode (i : Instr) : decode (encode i) = .ok i := by
  cases i <;> rfl

/-- A step with the word of a command in `CMD` is that command (10_state.md R34). -/
theorem step_of_decode {s : State} {i : Instr} (h : decode s.cmd = .ok i) : step s = exec i s := by
  rw [step, h]

/-- A step answers a next state exactly when `CMD` names a command that does. -/
theorem step_eq_next {s t : State} : step s = .next t ↔ ∃ i, decode s.cmd = .ok i ∧ exec i s = .next t := by
  rw [step]
  cases decode s.cmd with
  | ok i => simp
  | error reason => simp

/-- A byte put in `CMD` through the test interface is the byte the step reads (log 18). -/
theorem withFetchWord_byte (s : State) (w : Byte) : s.withFetchWord 8 w.toNat = { s with cmd := w } := by
  have hword : BitVec.ofNat 8 (w.toNat % 2 ^ 8) = w := by
    rw [Nat.mod_eq_of_lt w.isLt, BitVec.ofNat_toNat, BitVec.setWidth_eq]
  rw [State.withFetchWord, hword]

theorem decodeTableWord_encode (i : Instr) : decodeTableWord 8 (encode i).toNat = some i := by
  cases i <;> rfl

end Sys2Proof.Machine

namespace Sys2Proof
open Machine

/-- Settles O5: every command is well formed, so decoding alone decides what a step runs. -/
theorem stepRunsDecodedCommand : Obligations.StepRunsDecodedCommand :=
  fun _ _ hdecode _ => step_of_decode hdecode

/-- Settles O6: the word written is the word decoded, and decoding undoes encoding. -/
theorem fetchedWordRunsItsCommand : Obligations.FetchedWordRunsItsCommand := by
  intro s i
  refine ⟨decodeTableWord_encode i, ?_⟩
  rw [withFetchWord_byte]
  exact step_of_decode (decode_encode i)

end Sys2Proof
end

-- ==== What every command leaves ====
section
/-! The frame of the commands and what they leave in `OBUF`, by their three ends. -/

namespace Sys2Proof
open Machine

/-- Settles O45: each end keeps the operand registers and `IBUF`; only LUTRD's end writes `LDATA`. -/
theorem operandsAndLdataUnchanged : Obligations.OperandsAndLdataUnchanged := by
  intro i s t h
  cases exec_commandEnd h with
  | completed out hcodec _ hval =>
    refine ⟨rfl, rfl, rfl, fun _ => rfl, fun _ => rfl, ?_⟩
    rintro (hi | hi)
    · simp [hval hi]
    · exact absurd hi hcodec
  | raised => exact ⟨rfl, rfl, rfl, fun _ => rfl, fun _ => rfl, fun _ => by simp⟩
  | lookedUp word hlutrd => exact ⟨rfl, rfl, rfl, fun _ => rfl, fun hi => absurd hlutrd hi, fun _ => by simp⟩

/-- Settles O46: an OK end fills `OBUF` with the output and `OLEN` with its length; the error leaves both empty. -/
theorem obufDefinedExactlyBelowOlen : Obligations.ObufDefinedExactlyBelowOlen := by
  intro i s t h a
  cases exec_commandEnd h with
  | completed out => simp
  | raised => simp
  | lookedUp => simp

end Sys2Proof
end

-- ==== The invariant of the state ====
section
/-! The invariant holds after reset, and each end of a command keeps it. -/

namespace Sys2Proof.Machine
variable {p : Params} {s : State}

/-- The invariant holds after reset, on every block (10_state.md R43). -/
theorem State.reset_inv (p : Params) : State.reset.Inv p where
  ibufCanonical := Memory.reset_wf.1
  ibufWithin := fun _ hc => absurd hc List.not_mem_nil
  obufDefined := ⟨[], rfl, rfl⟩
  olenFits := Nat.zero_le _
  ilenFits := Nat.two_pow_pos _
  errPosFits := Nat.zero_le _
  noError := fun _ => ⟨rfl, rfl⟩
  error := fun hst => absurd hst (by decide)
  idle := fun _ => ⟨rfl, rfl⟩

/-- The OK end keeps the invariant when the output fits `OBUF`. -/
theorem State.Inv.complete (h : s.Inv p) {out : List Byte} (hfits : out.length ≤ p.oMax) : (s.complete out).Inv p where
  ibufCanonical := h.ibufCanonical
  ibufWithin := h.ibufWithin
  obufDefined := ⟨out, rfl, rfl⟩
  olenFits := hfits
  ilenFits := h.ilenFits
  errPosFits := Nat.zero_le _
  noError := fun _ => ⟨rfl, rfl⟩
  error := fun hst => absurd hst (by simp)
  idle := fun hst => absurd hst (by simp)

/-- The error entry keeps the invariant when it names an invalid character at a position an input can have. -/
theorem State.Inv.raiseInvalidCharacter (h : s.Inv p) {ch : Byte} {pos : Nat} (hpos : 0 < pos) (hmax : pos ≤ p.nMax)
    (hinvalid : dec p.sep ch = .invalid) : (s.raiseInvalidCharacter ch pos).Inv p where
  ibufCanonical := h.ibufCanonical
  ibufWithin := h.ibufWithin
  obufDefined := ⟨[], rfl, rfl⟩
  olenFits := Nat.zero_le _
  ilenFits := h.ilenFits
  errPosFits := hmax
  noError := fun hst => absurd (State.raise_st s ch pos) hst
  error := fun _ => ⟨hpos, hinvalid, rfl⟩
  idle := fun hst => absurd hst (by simp)

/-- Once a command has completed, `LDATA` may hold any word. -/
theorem State.Inv.withLdata (h : s.Inv p) (hst : s.st ≠ .idle) (word : Byte) : { s with ldata := word }.Inv p :=
  { h with idle := fun hidle => absurd hidle hst }

/-- Every end of a command keeps the invariant. -/
theorem CommandEnd.inv {i : Instr} {t : State} (hend : CommandEnd p i s t) (h : s.Inv p) : t.Inv p := by
  cases hend with
  | completed out _ hfits => exact h.complete hfits
  | raised ch pos _ hpos hlast _ hinvalid hlen => exact h.raiseInvalidCharacter hpos (hlast.trans hlen) hinvalid
  | lookedUp word => exact (h.complete (out := []) (Nat.zero_le _)).withLdata (by simp) word

/-- In a state with the invariant a byte of `OBUF` has a value exactly below `OLEN` (10_state.md R24). -/
theorem State.Inv.read_obuf_isSome_iff (h : s.Inv p) (i : Nat) : (Memory.read s.obuf i).isSome = true ↔ i < s.olen := by
  obtain ⟨out, hobuf, holen⟩ := h.obufDefined
  simp [hobuf, holen]

end Sys2Proof.Machine

namespace Sys2Proof
open Machine

/-- Settles O51, on the block's own parameters. -/
theorem resetMeetsInvariant : Obligations.ResetMeetsInvariant := State.reset_inv Config.params

/-- Settles O52: a step that answers a next state is a command at one of its three ends, and each keeps the invariant. -/
theorem stepKeepsInvariant : Obligations.StepKeepsInvariant := by
  intro s t hinv hstep
  obtain ⟨i, -, hexec⟩ := step_eq_next.mp hstep
  exact (exec_commandEnd hexec).inv hinv

end Sys2Proof
end

-- ==== The host's registers and reads of OBUF ====
section
/-! The widths of the registers, the writes the block ignores, and the host's reads of `OBUF`. -/

namespace Sys2Proof

/-- The width a number needs is the least that holds it (00_scope.md R6). -/
theorem lt_two_pow_iff_bitsFor_le (n w : Nat) : n < 2 ^ w ↔ bitsFor n ≤ w := by
  rw [bitsFor]
  split
  case isTrue hzero => simp [hzero]
  case isFalse hpos => rw [Nat.add_one_le_iff, Nat.log2_lt hpos]

namespace Machine

/-- A number up to the largest length fits the width made for that length. -/
theorem lt_two_pow_bitsFor_of_le {n m : Nat} (h : n ≤ m) : n < 2 ^ bitsFor m := h.trans_lt (lt_two_pow_bitsFor m)

/-- The invariant bounds every register by its width (10_state.md Table 10-1). -/
theorem State.Inv.readReg_lt {p : Params} {s : State} (h : s.Inv p) (r : Reg) : s.readReg r < 2 ^ r.width p := by
  cases r with
  | cmd => exact s.cmd.isLt
  | ilen => exact h.ilenFits
  | laddr => exact s.laddr.isLt
  | st => exact s.st.code.isLt
  | olen => exact lt_two_pow_bitsFor_of_le h.olenFits
  | errChar => exact s.errChar.isLt
  | errPos => exact lt_two_pow_bitsFor_of_le h.errPosFits
  | ldata => exact s.ldata.isLt

theorem hostWritable_iff (r : Reg) : r.hostWritable = true ↔ r = .cmd ∨ r = .ilen ∨ r = .laddr := by
  cases r <;> decide

/-- The block ignores a host write of a read-only register (10_state.md R25). -/
theorem hostWriteReg_of_readOnly {r : Reg} (h : ¬ r.hostWritable = true) (p : Params) (v : Nat) (s : State) :
    hostWriteReg p r v s = .next s := if_neg h

/-- A byte of `OBUF` below `OLEN` that has a value is what the host reads. -/
theorem hostReadObuf_of_lt {s : State} {i : Nat} {v : Byte} (hi : i < s.olen) (hread : Memory.read s.obuf i = some v) :
    hostReadObuf i s = .ok v := by
  rw [hostReadObuf, if_pos hi, hread]

/-- The host reads nothing at or above `OLEN` (10_state.md R24). -/
theorem hostReadObuf_of_le {s : State} {i : Nat} (hi : s.olen ≤ i) : hostReadObuf i s = .error (.obufUndefined i) :=
  if_neg (Nat.not_lt.mpr hi)

end Machine

open Machine

/-- Settles O60: the widths are the table's, and the length registers' are the least that hold their largest values. -/
theorem registerValuesFitWidths : Obligations.RegisterValuesFitWidths := fun p =>
  ⟨rfl, rfl, rfl, rfl, rfl, rfl, lt_two_pow_iff_bitsFor_le p.nMax, lt_two_pow_iff_bitsFor_le p.oMax,
    fun _ r hinv => hinv.readReg_lt r⟩

/-- Settles O54: the invariant gives every byte below `OLEN` a value. -/
theorem hostReadsObufBelowOlenOnly : Obligations.HostReadsObufBelowOlenOnly := by
  intro s i hinv
  constructor
  · intro hi
    obtain ⟨v, hread⟩ := Option.isSome_iff_exists.mp ((hinv.read_obuf_isSome_iff i).mpr hi)
    have hok := hostReadObuf_of_lt hi hread
    exact ⟨⟨v, hok, hread⟩, afterRead_eq_next.mpr ⟨rfl, v, hok⟩⟩
  · intro hi
    rw [hostMove, hostReadObuf_of_le hi, afterRead]

/-- Settles O55: `CMD`, `ILEN` and `LADDR` are the only registers the host may write, and a write of `OBUF` is no write. -/
theorem readOnlyWritesHaveNoEffect : Obligations.ReadOnlyWritesHaveNoEffect := by
  intro r v i b s hcmd hilen hladdr
  have hreadOnly : ¬ r.hostWritable = true := by simp [hostWritable_iff, hcmd, hilen, hladdr]
  exact ⟨hostWriteReg_of_readOnly hreadOnly Config.params v s, rfl⟩

end Sys2Proof
end

-- ==== The lookup address map ====
section
/-! The ROM word LUTRD reads in each of the three address ranges (20_memory.md R55), and what LUTRD answers to it. -/

namespace Sys2Proof.Machine
variable {a : BitVec 9}

/-- Bit 8 of a lookup address is set exactly in the decode ROM's range. -/
theorem getLsbD_eight_iff : a.getLsbD 8 = true ↔ 0x100#9 ≤ a := by
  rw [show a.getLsbD 8 = a.msb from rfl, BitVec.msb_eq_decide, decide_eq_true_iff, BitVec.le_def]
  rfl

/-- Below the decode ROM's range, bits 7 to 5 are zero exactly in the alphabet ROM's range. -/
theorem extractLsb'_five_three_eq_zero_iff (h : ¬ 0x100#9 ≤ a) : a.extractLsb' 5 3 = 0#3 ↔ a ≤ 0x01F#9 := by
  have hfield : (a.extractLsb' 5 3).toNat = a.toNat / 32 % 8 := by
    rw [BitVec.extractLsb'_toNat, Nat.shiftRight_eq_div_pow]
  bv_omega

theorem lut_of_alphabet (sep : Byte) (h : a ≤ 0x01F#9) : lut sep a = some (alpha (a.extractLsb' 0 5)) := by
  have hlow : ¬ 0x100#9 ≤ a := by bv_omega
  rw [lut, if_neg (mt getLsbD_eight_iff.mp hlow), if_pos ((extractLsb'_five_three_eq_zero_iff hlow).mpr h)]

theorem lut_of_reserved (sep : Byte) (hfrom : 0x020#9 ≤ a) (hto : a ≤ 0x0FF#9) : lut sep a = none := by
  have hlow : ¬ 0x100#9 ≤ a := by bv_omega
  have habove : ¬ a ≤ 0x01F#9 := by bv_omega
  rw [lut, if_neg (mt getLsbD_eight_iff.mp hlow), if_neg (mt (extractLsb'_five_three_eq_zero_iff hlow).mp habove)]

theorem lut_of_decode (sep : Byte) (h : 0x100#9 ≤ a) : lut sep a = some (dec sep (a.extractLsb' 0 8)).code :=
  if_pos (getLsbD_eight_iff.mpr h)

/-- LUTRD on an address the map gives a word ends OK with the word in `LDATA` (40_lut.md R111). -/
theorem exec_lutrd_of_some {s : State} {word : Byte} (h : lut Config.params.sep s.laddr = some word) :
    exec .lutrd s = .next { s.complete [] with ldata := word } :=
  lookupCommand_eq_next.mpr ⟨word, h, rfl⟩

/-- LUTRD on an address the map gives no word is refused (60_exceptions.md R201). -/
theorem exec_lutrd_of_none {s : State} (h : lut Config.params.sep s.laddr = none) :
    exec .lutrd s = .refused (.reservedLutAddress s.laddr) := by
  rw [exec_eq_runWith, runWith, lookupCommand, h]

end Sys2Proof.Machine

namespace Sys2Proof
open Machine

/-- Settles O8: the three ranges of the map, each carried through LUTRD. -/
theorem lutrdFollowsAddressMap : Obligations.LutrdFollowsAddressMap := fun _ =>
  ⟨fun halphabet => ⟨_, exec_lutrd_of_some (lut_of_alphabet _ halphabet), rfl⟩,
    fun hfrom hto => exec_lutrd_of_none (lut_of_reserved _ hfrom hto),
    fun hdecode => ⟨_, exec_lutrd_of_some (lut_of_decode _ hdecode), rfl⟩⟩

end Sys2Proof
end

-- ==== The command words ====
section
/-! Which words the decoder accepts, and why it rejects every other one (30_encoding.md R71 to R73). -/

namespace Sys2Proof

/-- The command word with the fields `f` (30_encoding.md R71, Table 30-1); `ofFields_fieldsOf` ties it to `fieldsOf`. -/
def ofFields (f : CommandFields) : Byte := f.rsv ++ f.s ++ f.op

/-- A command word is its three fields side by side. -/
theorem ofFields_fieldsOf (w : Byte) : ofFields (fieldsOf w) = w := by
  calc ofFields (fieldsOf w)
    _ = w.extractLsb' 3 5 ++ w.extractLsb' 2 1 ++ w.extractLsb' 0 2 := rfl
    _ = w.extractLsb' 2 6 ++ w.extractLsb' 0 2 :=
      congrArg (· ++ w.extractLsb' 0 2) (BitVec.extractLsb'_append_extractLsb'_eq_extractLsb' rfl)
    _ = w.extractLsb' 0 8 := BitVec.extractLsb'_append_extractLsb'_eq_extractLsb' rfl
    _ = w := BitVec.extractLsb'_eq_self

/-- A word that is no command's is rejected by the reason its `RSV` field gives (30_encoding.md R73). -/
theorem decode_of_ne_encode {w : Byte} (h : ∀ i, w ≠ encode i) :
    decode w = .error (if (fieldsOf w).rsv = 0 then .optionWithoutEncode else .reservedBits) := by
  have henc : w ≠ 0x00 := h .enc
  have hencs : w ≠ 0x04 := h .encs
  have hdec : w ≠ 0x01 := h .dec
  have hval : w ≠ 0x02 := h .val
  have hlutrd : w ≠ 0x03 := h .lutrd
  rw [decode, if_neg henc, if_neg hencs, if_neg hdec, if_neg hval, if_neg hlutrd]
  split <;> rfl

/-- The only word that decodes to a command is its own. -/
theorem decode_eq_ok_iff {w : Byte} {i : Instr} : decode w = .ok i ↔ w = encode i := by
  constructor
  · intro hdecode
    by_cases hcommand : ∃ j, w = encode j
    · obtain ⟨j, rfl⟩ := hcommand
      rw [Machine.decode_encode] at hdecode
      cases hdecode
      rfl
    · rw [decode_of_ne_encode (not_exists.mp hcommand)] at hdecode
      cases hdecode
  · rintro rfl
    exact Machine.decode_encode i

/-- The command words are the five lowest bytes. -/
theorem encode_le (i : Instr) : encode i ≤ 0x04#8 := by
  cases i <;> decide

theorem ne_encode_of_le {w : Byte} (h : 0x05#8 ≤ w) (i : Instr) : w ≠ encode i := by
  have hword := encode_le i
  bv_omega

theorem rsv_eq_zero_iff (w : Byte) : (fieldsOf w).rsv = 0 ↔ w ≤ 0x07#8 := by
  have hfield : (fieldsOf w).rsv.toNat = w.toNat / 8 % 32 := by
    rw [fieldsOf, BitVec.extractLsb'_toNat, Nat.shiftRight_eq_div_pow]
  bv_omega

/-- Fields with the legal values of Table 30-1 are those of a command (30_encoding.md R71). -/
theorem exists_ofFields_eq_encode (s : BitVec 1) (op : BitVec 2) (h : op = 0 ∨ (s = 0 ∧ op ≠ 0)) :
    ∃ i, ofFields ⟨0, s, op⟩ = encode i := by
  have hop : ∀ op : BitVec 2, op = 0 ∨ op = 1 ∨ op = 2 ∨ op = 3 := by decide
  rcases h with rfl | ⟨rfl, hne⟩
  · rcases BitVec.eq_zero_or_eq_one s with rfl | rfl
    · exact ⟨.enc, rfl⟩
    · exact ⟨.encs, rfl⟩
  · rcases hop op with rfl | rfl | rfl | rfl
    · exact absurd rfl hne
    · exact ⟨.dec, rfl⟩
    · exact ⟨.val, rfl⟩
    · exact ⟨.lutrd, rfl⟩

namespace Machine

/-- A START with a reserved word in `CMD` is refused by the reason the word is reserved (30_encoding.md R73). -/
theorem step_of_decode_error {s : State} {reason : ReservedWord} (h : decode s.cmd = .error reason) :
    step s = .refused (.reservedCommand s.cmd reason) := by
  rw [step, h]

end Machine

open Machine

/-- Settles O1: a word outside the five rows of the table is no command's, so it is rejected. -/
theorem commandMapIsTable : Obligations.CommandMapIsTable := by
  refine ⟨rfl, rfl, rfl, rfl, rfl, fun w henc hencs hdec hval hlutrd => ⟨_, decode_of_ne_encode fun i => ?_⟩⟩
  cases i <;> assumption

/-- Settles O2: decoding undoes encoding, and every word that is no command's is rejected. -/
theorem decodeAndEncodeAgree : Obligations.DecodeAndEncodeAgree := fun _ _ => decode_eq_ok_iff

/-- Settles O3: the words of the five commands have legal fields, and legal fields put together are one of those words. -/
theorem decoderAcceptsExactlyLegalFields : Obligations.DecoderAcceptsExactlyLegalFields := by
  intro w
  simp only [decode_eq_ok_iff]
  constructor
  · rintro ⟨i, rfl⟩
    cases i <;> decide
  · rintro ⟨hrsv, hlegal⟩
    obtain ⟨i, hi⟩ := exists_ofFields_eq_encode _ _ hlegal
    exact ⟨i, by rw [← hi, ← hrsv, ofFields_fieldsOf]⟩

/-- Settles O4: above the last command word every word is reserved, and `RSV` is 0 exactly up to 0x07. -/
theorem reservedWordsRefused : Obligations.ReservedWordsRefused := by
  intro s
  constructor
  · intro hfrom hto
    apply step_of_decode_error
    rw [decode_of_ne_encode (ne_encode_of_le hfrom), if_pos ((rsv_eq_zero_iff _).mpr hto)]
  · intro hfrom
    have hreserved : 0x05#8 ≤ s.cmd := by bv_omega
    have hrsv : ¬ s.cmd ≤ 0x07#8 := by bv_omega
    apply step_of_decode_error
    rw [decode_of_ne_encode (ne_encode_of_le hreserved), if_neg (mt (rsv_eq_zero_iff _).mp hrsv)]

end Sys2Proof
end

-- ==== The codes of the decode ROM ====
section
/-! A decode ROM word is told from its 8-bit code (30_encoding.md R74). -/

namespace Sys2Proof.Machine

@[simp] theorem DecWord.toNat_code_value (v : Value5) : (DecWord.value v).code.toNat = v.toNat := by
  rw [DecWord.code, BitVec.toNat_setWidth, Nat.mod_eq_of_lt (v.isLt.trans (by decide))]

/-- The code of class VALUE is below 0x20. -/
theorem DecWord.code_value_lt (v : Value5) : (DecWord.value v).code < 0x20#8 := by
  rw [BitVec.lt_def, DecWord.toNat_code_value]
  exact v.isLt

/-- The code of class VALUE has zeros in bits 7 to 5. -/
theorem DecWord.extractLsb'_high_code_value (v : Value5) : (DecWord.value v).code.extractLsb' 5 3 = 0b000#3 := by
  apply BitVec.eq_of_toNat_eq
  rw [BitVec.extractLsb'_toNat, DecWord.toNat_code_value, Nat.shiftRight_eq_div_pow, Nat.div_eq_of_lt v.isLt]
  rfl

/-- The code of class VALUE has the value in bits 4 to 0. -/
theorem DecWord.extractLsb'_low_code_value (v : Value5) : (DecWord.value v).code.extractLsb' 0 5 = v := by
  apply BitVec.eq_of_toNat_eq
  rw [BitVec.extractLsb'_toNat, DecWord.toNat_code_value, Nat.shiftRight_zero, Nat.mod_eq_of_lt v.isLt]

theorem DecWord.eq_value_iff (d : DecWord) (v : Value5) :
    d = .value v ↔ d.code.extractLsb' 5 3 = 0b000#3 ∧ d.code.extractLsb' 0 5 = v := by
  cases d with
  | value u => simp [extractLsb'_high_code_value, extractLsb'_low_code_value]
  | ignorable => exact iff_of_false nofun fun ⟨hhigh, _⟩ => absurd hhigh (by decide)
  | invalid => exact iff_of_false nofun fun ⟨hhigh, _⟩ => absurd hhigh (by decide)

theorem DecWord.eq_ignorable_iff (d : DecWord) : d = .ignorable ↔ d.code = 0xFE := by
  cases d with
  | value u =>
    have hcode := code_value_lt u
    exact iff_of_false nofun (by bv_omega)
  | ignorable => decide
  | invalid => decide

theorem DecWord.eq_invalid_iff (d : DecWord) : d = .invalid ↔ d.code = 0xFF := by
  cases d with
  | value u =>
    have hcode := code_value_lt u
    exact iff_of_false nofun (by bv_omega)
  | ignorable => decide
  | invalid => decide

/-- No decode ROM word has a code between the values and `IGN_CODE`. -/
theorem DecWord.code_not_between (d : DecWord) : ¬ (0x20#8 ≤ d.code ∧ d.code ≤ 0xFD#8) := by
  cases d with
  | value u =>
    have hcode := code_value_lt u
    bv_omega
  | ignorable => decide
  | invalid => decide

end Sys2Proof.Machine

namespace Sys2Proof
open Machine

/-- Settles O16: the code tells the class of any decode ROM word, so of the one in each slot. -/
theorem decodeWordClassFromCode : Obligations.DecodeWordClassFromCode := fun sep x =>
  ⟨(dec sep x).eq_value_iff, (dec sep x).eq_ignorable_iff, (dec sep x).eq_invalid_iff, (dec sep x).code_not_between⟩

end Sys2Proof
end

-- ==== The lines of a host program ====
section
/-! The host's moves of a line of a program, each run by its effect, up to the START (30_encoding.md R79). -/

namespace Sys2Proof.Machine

/-- The buffer after `bytes` have been written into it from index `a` up; `runMoves_writeIbuf` ties it to the host's moves. -/
def Memory.writeFrom (m : Memory) (a : Nat) : List Byte → Memory
  | [] => m
  | v :: bytes => Memory.writeFrom (Memory.write m a v) (a + 1) bytes

theorem Memory.read_writeFrom_outside (bytes : List Byte) (m : Memory) {a i : Nat} (h : i < a ∨ a + bytes.length ≤ i) :
    Memory.read (Memory.writeFrom m a bytes) i = Memory.read m i := by
  induction bytes generalizing m a with
  | nil => rfl
  | cons v bytes ih =>
    rw [List.length_cons] at h
    rw [Memory.writeFrom, ih _ (by omega), Memory.read_write_other _ _ (by omega)]

theorem Memory.read_writeFrom_inside {bytes : List Byte} (m : Memory) (a : Nat) {k : Nat} (h : k < bytes.length) :
    Memory.read (Memory.writeFrom m a bytes) (a + k) = bytes[k]? := by
  induction bytes generalizing m a k with
  | nil => exact absurd h (Nat.not_lt_zero k)
  | cons v bytes ih =>
    rw [Memory.writeFrom]
    cases k with
    | zero => rw [Memory.read_writeFrom_outside bytes _ (by omega)]; simp
    | succ k => rw [show a + (k + 1) = a + 1 + k by omega, ih _ _ (Nat.lt_of_succ_lt_succ h), List.getElem?_cons_succ]

/-- A host write of an index that exists stores the byte (20_memory.md R54, R56). -/
theorem hostMove_writeIbuf {i : Nat} (h : i < Config.params.nMax) (v : Byte) (s : State) :
    hostMove (.writeIbuf i v) s = .next { s with ibuf := Memory.write s.ibuf i v } := if_pos h

/-- A host write of a value that fits a register the host may write sets it (10_state.md R25). -/
theorem hostMove_writeReg {r : Reg} {v : Nat} (hr : r.hostWritable = true) (hv : v < 2 ^ r.width Config.params) (s : State) :
    hostMove (.writeReg r v) s = .next (s.setReg r v) := by
  rw [hostMove, hostWriteReg, if_pos hr, if_pos hv]

/-- The host's writes of `bytes` from index `a` up leave the filled buffer and nothing else. -/
theorem runMoves_writeIbuf (bytes : List Byte) {a : Nat} (s : State) (rest : List HostMove)
    (h : a + bytes.length ≤ Config.params.nMax) :
    runMoves ((bytes.zipIdx a).map (fun c => .writeIbuf c.2 c.1) ++ rest) s =
      runMoves rest { s with ibuf := Memory.writeFrom s.ibuf a bytes } := by
  induction bytes generalizing a s with
  | nil => rfl
  | cons v bytes ih =>
    rw [List.length_cons] at h
    rw [List.zipIdx_cons, List.map_cons, List.cons_append,
      runMoves_cons_of_next (hostMove_writeIbuf (by omega) v s), ih _ (by omega), Memory.writeFrom]

/-- The operand of at most `N_MAX` bytes and its length, put where a command reads them (30_encoding.md R79). -/
theorem runMoves_writeOperand {operand : List Byte} (h : operand.length ≤ Config.params.nMax) (s : State)
    (rest : List HostMove) :
    runMoves (writeOperand operand ++ rest) s =
      runMoves rest { s with ilen := operand.length, ibuf := Memory.writeFrom s.ibuf 0 operand } := by
  rw [writeOperand, List.append_assoc, runMoves_writeIbuf operand s _ (by omega), List.singleton_append,
    runMoves_cons_of_next (hostMove_writeReg rfl (lt_two_pow_bitsFor_of_le h) _), State.setReg]

/-- The command's word, then START: the command runs (10_state.md R34). -/
theorem runMoves_writeCmd_start (i : Instr) (s : State) :
    runMoves [.writeReg .cmd (encode i).toNat, .start] s = exec i { s with cmd := encode i } := by
  rw [runMoves_cons_of_next (hostMove_writeReg rfl (encode i).isLt s), runMoves_start, State.setReg,
    BitVec.ofNat_toNat, BitVec.setWidth_eq]
  exact step_of_decode (decode_encode i)

/-- The line of a codec command runs it on the operand (30_encoding.md R79). -/
theorem runMoves_commandLine (i : Instr) {operand : List Byte} (h : operand.length ≤ Config.params.nMax) (s : State) :
    runMoves (commandLine i operand) s =
      exec i { s with cmd := encode i, ilen := operand.length, ibuf := Memory.writeFrom s.ibuf 0 operand } := by
  rw [commandLine, runMoves_writeOperand h, runMoves_writeCmd_start]

/-- The line of LUTRD runs it on the address (30_encoding.md R79). -/
theorem runMoves_lookupLine (a : BitVec 9) (s : State) :
    runMoves (lookupLine a) s = exec .lutrd { s with cmd := encode .lutrd, laddr := a } := by
  rw [lookupLine, runMoves_cons_of_next (hostMove_writeReg rfl a.isLt s), runMoves_writeCmd_start, State.setReg,
    BitVec.ofNat_toNat, BitVec.setWidth_eq]

end Sys2Proof.Machine

namespace Sys2Proof
open Machine

/-- Settles O59: the state at START is the starting state with the operand written into it, and the writes leave every
byte above the operand. -/
theorem programLineRunsItsCommand : Obligations.ProgramLineRunsItsCommand := by
  refine ⟨fun i operand s _ hlen => ?_, runMoves_lookupLine, fun _ => ⟨rfl, rfl, rfl, rfl, rfl⟩⟩
  refine ⟨{ s with cmd := encode i, ilen := operand.length, ibuf := Memory.writeFrom s.ibuf 0 operand },
    ⟨rfl, hlen, fun k hk => ?_⟩, fun a ha => ?_, rfl, runMoves_commandLine i hlen s⟩
  · simpa using Memory.read_writeFrom_inside s.ibuf 0 hk
  · exact Memory.read_writeFrom_outside operand s.ibuf (.inr (by omega))

end Sys2Proof
end

-- ==== The steps of the table builder ====
section
/-! What each step of the table builder gives a slot (40_lut.md R101 to R105), one step on the other. -/

namespace Sys2Proof.Machine

/-! ### Step 3: the alphabet -/

theorem decStep3_eq_invalid_iff (x : Byte) : decStep3 x = .invalid ↔ x ∉ alphabet := by
  rw [decStep3]
  split
  case h_1 i hfound =>
    obtain ⟨hlt, heq, -⟩ := List.findIdx?_eq_some_iff_getElem.mp hfound
    have hmem : x ∈ alphabet := beq_iff_eq.mp heq ▸ List.getElem_mem hlt
    exact iff_of_false nofun (not_not_intro hmem)
  case h_2 hnone =>
    exact iff_of_true rfl fun hmem => by simpa using List.findIdx?_eq_none_iff.mp hnone x hmem

theorem decStep3_ne_ignorable (x : Byte) : decStep3 x ≠ .ignorable := by
  rw [decStep3]
  split <;> nofun

theorem decStep3_alpha : ∀ v : Value5, decStep3 (alpha v) = .value v := by decide

/-! ### Step 4: the corrections -/

theorem correctionTarget_eq_none_iff (x : Byte) :
    correctionTarget x = none ↔ x ≠ 0x30 ∧ x ≠ 0x32 ∧ x ≠ 0x6C ∧ x ≠ 0x7C ∧ x ≠ 0x76 := by
  grind [correctionTarget]

/-- Step 4 overwrites no slot of step 3: a correction character is not in the alphabet (40_lut.md R103). -/
theorem correctionTarget_alpha : ∀ v : Value5, correctionTarget (alpha v) = none := by decide

theorem correctionTarget_mem_alphabet {x y : Byte} (h : correctionTarget x = some y) : y ∈ alphabet := by
  have htarget : y = 0x6F ∨ y = 0x7A ∨ y = 0x31 ∨ y = 0x75 := by grind [correctionTarget]
  rcases htarget with rfl | rfl | rfl | rfl <;> decide

theorem decStep4_of_target {x y : Byte} (h : correctionTarget x = some y) : decStep4 x = decStep3 y := by
  rw [decStep4, h]

theorem decStep4_of_no_target {x : Byte} (h : correctionTarget x = none) : decStep4 x = decStep3 x := by
  rw [decStep4, h]

theorem decStep4_eq_invalid_iff_notMem (x : Byte) :
    decStep4 x = .invalid ↔ correctionTarget x = none ∧ x ∉ alphabet := by
  cases h : correctionTarget x with
  | none => simp [decStep4_of_no_target h, decStep3_eq_invalid_iff]
  | some y => simp [decStep4_of_target h, decStep3_eq_invalid_iff, correctionTarget_mem_alphabet h]

/-- The alphabet and the corrections together are the ten digits, the lowercase letters and the bar. -/
theorem decStep4_eq_invalid_iff (x : Byte) :
    decStep4 x = .invalid ↔ ¬ (0x30#8 ≤ x ∧ x ≤ 0x39#8) ∧ ¬ (0x61#8 ≤ x ∧ x ≤ 0x7A#8) ∧ x ≠ 0x7C := by
  rw [decStep4_eq_invalid_iff_notMem, correctionTarget_eq_none_iff]
  simp only [alphabet, List.mem_cons, List.not_mem_nil, or_false]
  bv_omega

theorem decStep4_ne_ignorable (x : Byte) : decStep4 x ≠ .ignorable := by
  rw [decStep4]
  split <;> exact decStep3_ne_ignorable _

/-! ### Step 5: the uppercase forms -/

theorem isUpper_iff (x : Byte) : isUpper x = true ↔ 0x41#8 ≤ x ∧ x ≤ 0x5A#8 := by simp [isUpper]

theorem isLower_iff (x : Byte) : isLower x = true ↔ 0x61#8 ≤ x ∧ x ≤ 0x7A#8 := by simp [isLower]

theorem upperForm_of_not_isLower {x : Byte} (h : ¬ isLower x = true) : upperForm x = none := if_neg h

theorem decStep5_of_isUpper {x : Byte} (h : isUpper x = true) : decStep5 x = decStep4 (x + 0x20) := by
  rw [decStep5, lowerForm, if_pos h]

theorem decStep5_of_not_isUpper {x : Byte} (h : ¬ isUpper x = true) : decStep5 x = decStep4 x := by
  rw [decStep5, lowerForm, if_neg h]

/-- No character of the alphabet is an uppercase letter, so step 5 keeps the slots of step 3. -/
theorem not_isUpper_alpha : ∀ v : Value5, ¬ isUpper (alpha v) = true := by decide

theorem decStep5_alpha (v : Value5) : decStep5 (alpha v) = .value v := by
  rw [decStep5_of_not_isUpper (not_isUpper_alpha v), decStep4_of_no_target (correctionTarget_alpha v), decStep3_alpha v]

/-- An uppercase letter's slot holds the word of the lowercase one (40_lut.md R104). -/
theorem decStep5_sub_of_isLower {x : Byte} (h : isLower x = true) : decStep5 (x - 0x20) = decStep5 x := by
  rw [isLower_iff] at h
  have hupper : isUpper (x - 0x20) = true := (isUpper_iff _).mpr (by bv_omega)
  have hlower : ¬ isUpper x = true := mt (isUpper_iff _).mp (by bv_omega)
  rw [decStep5_of_isUpper hupper, decStep5_of_not_isUpper hlower, BitVec.sub_add_cancel]

theorem decStep5_ne_ignorable (x : Byte) : decStep5 x ≠ .ignorable := by
  rw [decStep5]
  split <;> exact decStep4_ne_ignorable _

/-- The characters the table builder gives a value: the ten digits, the letters in both cases and the bar (40_lut.md
R107); `decStep5_eq_invalid_iff` ties it to the table. -/
abbrev HasValue (x : Byte) : Prop :=
  (0x30#8 ≤ x ∧ x ≤ 0x39#8) ∨ (0x41#8 ≤ x ∧ x ≤ 0x5A#8) ∨ (0x61#8 ≤ x ∧ x ≤ 0x7A#8) ∨ x = 0x7C

theorem decStep5_eq_invalid_iff (x : Byte) : decStep5 x = .invalid ↔ ¬ HasValue x := by
  by_cases h : isUpper x = true
  · rw [decStep5_of_isUpper h, decStep4_eq_invalid_iff]
    rw [isUpper_iff] at h
    unfold HasValue
    bv_omega
  · rw [decStep5_of_not_isUpper h, decStep4_eq_invalid_iff]
    rw [isUpper_iff] at h
    unfold HasValue
    bv_omega

theorem decStep5_eq_value_of_hasValue {x : Byte} (h : HasValue x) : ∃ v, decStep5 x = .value v := by
  cases hword : decStep5 x with
  | value v => exact ⟨v, rfl⟩
  | ignorable => exact absurd hword (decStep5_ne_ignorable x)
  | invalid => exact absurd h ((decStep5_eq_invalid_iff x).mp hword)

/-! ### Step 6: the separator -/

theorem dec_eq_ignorable_iff (sep x : Byte) : dec sep x = .ignorable ↔ x = sep := by
  by_cases h : x = sep
  · simp [h]
  · simp [dec_of_ne h, decStep5_ne_ignorable, h]

theorem dec_eq_invalid_iff (sep x : Byte) : dec sep x = .invalid ↔ ¬ HasValue x ∧ x ≠ sep := by
  by_cases h : x = sep
  · simp [h]
  · simp [dec_of_ne h, decStep5_eq_invalid_iff, h]

theorem not_hasValue_of_sepLegal {sep : Byte} (h : sepLegal sep = true) : ¬ HasValue sep :=
  (decStep5_eq_invalid_iff sep).mp (sepLegal_slot h)

/-- A legal separator takes no slot that has a value (00_scope.md R7 (a)), so step 6 keeps every one of them. -/
theorem dec_of_hasValue {sep x : Byte} (hsep : sepLegal sep = true) (hx : HasValue x) : dec sep x = decStep5 x :=
  dec_of_ne fun heq => not_hasValue_of_sepLegal hsep (heq ▸ hx)

theorem hasValue_alpha (v : Value5) : HasValue (alpha v) := by
  by_contra h
  have hinvalid := (decStep5_eq_invalid_iff _).mpr h
  rw [decStep5_alpha] at hinvalid
  cases hinvalid

end Sys2Proof.Machine
end

-- ==== The decode ROM for every legal separator ====
section
/-! The facts of 40_lut.md R102 to R109 about the decode ROM, and the end state of LUTRD (R111). -/

namespace Sys2Proof.Machine

/-! ### How many slots each class has -/

theorem DecWord.code_le_iff (d : DecWord) : d.code ≤ 0x1F#8 ↔ d ≠ .invalid ∧ d ≠ .ignorable := by
  cases d with
  | value v =>
    have hcode := DecWord.code_value_lt v
    exact iff_of_true (by bv_omega) ⟨nofun, nofun⟩
  | ignorable => decide
  | invalid => decide

/-- The codes of a legal separator's ROM that are values are those of the characters with a value. -/
theorem code_dec_le_iff {sep : Byte} (hsep : sepLegal sep = true) (x : Byte) :
    (dec sep x).code ≤ 0x1F#8 ↔ HasValue x := by
  rw [DecWord.code_le_iff, ne_eq, ne_eq, dec_eq_invalid_iff, dec_eq_ignorable_iff]
  constructor
  · tauto
  · exact fun hx => ⟨fun ⟨hnot, _⟩ => hnot hx, fun heq => not_hasValue_of_sepLegal hsep (heq ▸ hx)⟩

/-- A word is of exactly one class (30_encoding.md R74), told by its code. -/
theorem DecWord.one_class (d : DecWord) :
    (if d.code ≤ 0x1F#8 then 1 else 0) + (if d.code = 0xFE then 1 else 0) + (if d.code = 0xFF then 1 else 0) = 1 := by
  cases d with
  | value v =>
    have hcode := DecWord.code_value_lt v
    rw [if_pos (by bv_omega), if_neg (by bv_omega), if_neg (by bv_omega)]
  | ignorable => rfl
  | invalid => rfl

/-- Every word is of exactly one class, so the three counts add up to the number of words (30_encoding.md R74). -/
theorem countP_classes (words : List DecWord) :
    words.countP (fun d => decide (d.code ≤ 0x1F#8)) + words.countP (fun d => d.code == 0xFE) +
      words.countP (fun d => d.code == 0xFF) = words.length := by
  induction words with
  | nil => rfl
  | cons d words ih =>
    have hone := d.one_class
    simp only [List.countP_cons, List.length_cons, decide_eq_true_iff, beq_iff_eq]
    omega

theorem countP_range_eq_card {n : Nat} {q : Nat → Bool} (t : Finset Nat) (h : ∀ i, i ∈ t ↔ i < n ∧ q i = true) :
    (List.range n).countP q = t.card := by
  have hfilter : t = (List.range n).toFinset.filter (fun i => q i = true) := by
    ext i
    simp [h]
  rw [hfilter, List.nodup_range.card_eq_countP]
  simp

/-- The codes that have a value, as numbers. -/
def valueCodes : Finset Nat := Finset.Icc 0x30 0x39 ∪ Finset.Icc 0x41 0x5A ∪ Finset.Icc 0x61 0x7A ∪ {0x7C}

theorem mem_valueCodes (i : Nat) : i ∈ valueCodes ↔ i < 256 ∧ HasValue (BitVec.ofNat 8 i) := by
  simp only [valueCodes, HasValue, Finset.mem_union, Finset.mem_Icc, Finset.mem_singleton]
  bv_omega

theorem card_valueCodes : valueCodes.card = 63 := by
  rw [valueCodes, Finset.card_union_of_disjoint, Finset.card_union_of_disjoint, Finset.card_union_of_disjoint]
  · rfl
  all_goals
    simp only [Finset.disjoint_left, Finset.mem_union, Finset.mem_Icc, Finset.mem_singleton]
    omega

end Sys2Proof.Machine

namespace Sys2Proof
open Machine

/-- Settles O14: the value codes are counted by their ranges, the separator is one code, and the rest are invalid. -/
theorem decodeRomClassCounts : Obligations.DecodeRomClassCounts := by
  intro p hlegal
  have hvalue : ((List.range 256).countP fun x => decide ((dec p.sep (BitVec.ofNat 8 x)).code ≤ 0x1F#8)) = 63 := by
    rw [← card_valueCodes]
    apply countP_range_eq_card
    intro i
    rw [mem_valueCodes, decide_eq_true_iff, code_dec_le_iff hlegal]
  have hignorable : ((List.range 256).countP fun x => (dec p.sep (BitVec.ofNat 8 x)).code == 0xFE) = 1 := by
    rw [← Finset.card_singleton p.sep.toNat]
    apply countP_range_eq_card
    intro i
    rw [Finset.mem_singleton, beq_iff_eq, ← DecWord.eq_ignorable_iff, dec_eq_ignorable_iff]
    bv_omega
  have hclasses := countP_classes ((List.range 256).map fun x => dec p.sep (BitVec.ofNat 8 x))
  simp only [List.countP_map, Function.comp_def, List.length_map, List.length_range, hvalue, hignorable] at hclasses
  exact ⟨hvalue, hignorable, by omega⟩

/-- Settles O15: steps 2 to 5 leave exactly the characters without a value invalid, and step 6 takes the separator out. -/
theorem invalidIsExactlyTheUncovered : Obligations.InvalidIsExactlyTheUncovered := by
  intro p _ x
  rw [dec_eq_invalid_iff]
  simp only [HasValue, not_or, and_assoc, ne_eq]

/-- Settles O9: the address map gives every address that is not reserved a word, and LUTRD ends OK with it. -/
theorem lutrdCompletes : Obligations.LutrdCompletes := by
  rintro s (halphabet | hdecode)
  · exact ⟨_, lut_of_alphabet _ halphabet, exec_lutrd_of_some (lut_of_alphabet _ halphabet)⟩
  · exact ⟨_, lut_of_decode _ hdecode, exec_lutrd_of_some (lut_of_decode _ hdecode)⟩

/-- Settles O10: the alphabet's slots keep their values to the end, and a function with an inverse is injective. -/
theorem decodeRomInvertsAlphabet : Obligations.DecodeRomInvertsAlphabet := by
  intro p hlegal
  have hinv (v : Value5) : dec p.sep (alpha v) = .value v := by
    rw [dec_of_hasValue hlegal (hasValue_alpha v), decStep5_alpha]
  refine ⟨hinv, fun v w heq => DecWord.value.inj ?_⟩
  rw [← hinv v, heq, hinv w]

/-- Settles O11: each of the characters has a value, which the table of step 5 gives. -/
theorem correctionsHaveTargetValues : Obligations.CorrectionsHaveTargetValues := by
  intro p hlegal
  have hword {x : Byte} {v : Value5} (h : HasValue x ∧ decStep5 x = .value v) : dec p.sep x = .value v :=
    (dec_of_hasValue hlegal h.1).trans h.2
  exact ⟨hword (by decide), hword (by decide), hword (by decide), hword (by decide), hword (by decide),
    hword (by decide), hword (by decide), hword (by decide), hword (by decide),
    fun v => (correctionTarget_eq_none_iff _).mp (correctionTarget_alpha v)⟩

/-- Settles O12: step 5 gives an uppercase letter the word of the lowercase one, and a legal separator is neither. -/
theorem uppercaseDecodesAsLowercase : Obligations.UppercaseDecodesAsLowercase := by
  intro p hlegal
  refine ⟨fun x hfrom hto => ?_, ?_, ?_, fun x hfrom hto => ?_, rfl⟩
  · have hlower : HasValue x := .inr (.inr (.inl ⟨hfrom, hto⟩))
    have hupper : HasValue (x - 0x20) := .inr (.inl (by bv_omega))
    rw [dec_of_hasValue hlegal hupper, dec_of_hasValue hlegal hlower]
    exact ⟨decStep5_sub_of_isLower ((isLower_iff x).mpr ⟨hfrom, hto⟩), decStep5_eq_value_of_hasValue hlower⟩
  · exact (dec_of_hasValue hlegal (by decide)).trans (by decide)
  · exact (dec_of_hasValue hlegal (by decide)).trans (by decide)
  · exact upperForm_of_not_isLower (mt (isLower_iff x).mp (by bv_omega))

/-- Settles O13: no step before step 6 marks a slot ignorable, and step 6 marks the separator's alone. -/
theorem onlySeparatorIsIgnorable : Obligations.OnlySeparatorIsIgnorable := dec_eq_ignorable_iff

end Sys2Proof
end

-- ==== The bits of a stream ====
section
/-! The bits of the streams of 00_scope.md R11, and the encoder's slices as their fields (41_encode.md R132, R133). -/

namespace Sys2Proof.Machine

/-- A stream of equal blocks has bit `t` of block `j` at `n * j + t`; past its end it reads as the block of an element
whose bits are 0. -/
theorem getD_flatMap_blocks {α : Type} {n t : Nat} (bit : α → Nat → Bool) (xs : List α) (j : Nat) {zero : α}
    (hzero : bit zero t = false) (ht : t < n) :
    (xs.flatMap fun x => (List.range n).map (bit x)).getD (n * j + t) false = bit (xs.getD j zero) t := by
  induction xs generalizing j with
  | nil => simp [hzero]
  | cons x xs ih =>
    rw [List.flatMap_cons]
    cases j with
    | zero => rw [List.getD_append _ _ _ _ (by simpa using ht)]; simp [ht]
    | succ j =>
      have hindex : n * (j + 1) + t - n = n * j + t := by rw [Nat.mul_succ]; omega
      rw [List.getD_append_right _ _ _ _ (by simp [Nat.mul_succ]; omega), List.length_map, List.length_range, hindex, ih]
      rfl

/-- Bit `8 * j + t` of a payload's stream is `D[j][7 - t]`, and 0 past the end. -/
theorem getD_bitsOf8 (bytes : List Byte) (j : Nat) {t : Nat} (ht : t < 8) :
    (bitsOf8 bytes).getD (8 * j + t) false = (bytes.getD j 0).getLsbD (7 - t) :=
  getD_flatMap_blocks (fun (b : Byte) t => b.getLsbD (7 - t)) bytes j BitVec.getLsbD_zero ht

@[simp] theorem length_bitsOf8 (bytes : List Byte) : (bitsOf8 bytes).length = 8 * bytes.length := by
  simp [bitsOf8, Nat.mul_comm]

/-- The bits of field `k` of a stream, the earliest most significant. -/
theorem getLsbD_take5 (stream : List Bool) (k : Nat) {b : Nat} (hb : b < 5) :
    (take5 stream k).getLsbD b = stream.getD (5 * k + 4 - b) false := by
  simp only [take5, streamBit, BitVec.getLsbD_append]
  interval_cases b <;> simp

/-- The bits of the slice the shifts of R130 assemble are those of the stream, in the order of a field. -/
theorem getLsbD_slice (payload : List Byte) (k : Nat) {b : Nat} (hb : b < 5) :
    (slice payload k).getLsbD b = (bitsOf8 payload).getD (5 * k + 4 - b) false := by
  simp only [slice, BitVec.getLsbD_setWidth, BitVec.getLsbD_ushiftRight, BitVec.getLsbD_append, hb, decide_true,
    Bool.true_and]
  by_cases hfirst : 5 * k % 8 + 4 - b < 8
  · have hindex : 5 * k + 4 - b = 8 * (5 * k / 8) + (5 * k % 8 + 4 - b) := by omega
    rw [hindex, getD_bitsOf8 _ _ hfirst, if_neg (by omega)]
    congr 1
    omega
  · have hindex : 5 * k + 4 - b = 8 * (5 * k / 8 + 1) + (5 * k % 8 + 4 - b - 8) := by omega
    rw [hindex, getD_bitsOf8 _ _ (by omega), if_pos (by omega)]
    congr 1
    omega

/-- The shifts cut the payload's stream into its fields, past its end too (41_encode.md R133). -/
theorem slice_eq_take5 (payload : List Byte) (k : Nat) : slice payload k = take5 (bitsOf8 payload) k := by
  apply BitVec.eq_of_getLsbD_eq
  intro b hb
  rw [getLsbD_slice payload k hb, getLsbD_take5 _ k hb]

end Sys2Proof.Machine

namespace Sys2Proof
open Machine

/-- Settles O17: the count is a quotient that rounds up, by at most four fifths of a character. -/
theorem dataCharCountByGroups : Obligations.DataCharCountByGroups := by
  refine ⟨fun n => by rw [dataCharCount]; omega, fun q r hr => ?_⟩
  rw [dataCharCount]
  interval_cases r <;> simp only [List.getD_cons_zero, List.getD_cons_succ] <;> omega

/-- Settles O18: the bits of a slice are stream bits, and the padding bits are those past the end of the stream. -/
theorem sliceIsBitStreamField : Obligations.SliceIsBitStreamField := by
  intro payload
  refine ⟨fun k _ => slice_eq_take5 payload k, ?_, fun b hb => ?_, fun k hk => ?_⟩
  · have hlt : payload.length % 5 < 5 := Nat.mod_lt _ (by decide)
    rw [dataCharCount]
    interval_cases hmod : payload.length % 5 <;> simp only [List.getD_cons_zero, List.getD_cons_succ] <;> omega
  · rw [dataCharCount] at hb ⊢
    have hend : (bitsOf8 payload).length ≤ 5 * ((8 * payload.length + 4) / 5 - 1) + 4 - b := by
      rw [length_bitsOf8]
      omega
    rw [getLsbD_slice _ _ (by omega), List.getD_eq_default _ _ hend]
  · rw [dataCharCount] at hk
    omega

end Sys2Proof
end

-- ==== The wiring of a group of bytes ====
section
/-! The eight slices of a group of five bytes, bit by bit (41_encode.md R135, R136). -/

namespace Sys2Proof.Machine

/-- Bit `b` of slice `r` of a group is bit `5 * r + 4 - b` of the group's bytes. -/
theorem getLsbD_slice_of_group (payload : List Byte) (g r : Nat) {b : Nat} (hb : b < 5) :
    (slice payload (8 * g + r)).getLsbD b =
      (payload.getD (5 * g + (5 * r + 4 - b) / 8) 0).getLsbD (7 - (5 * r + 4 - b) % 8) := by
  have hindex : 5 * (8 * g + r) + 4 - b = 8 * (5 * g + (5 * r + 4 - b) / 8) + (5 * r + 4 - b) % 8 := by omega
  rw [getLsbD_slice _ _ hb, hindex, getD_bitsOf8 _ _ (Nat.mod_lt _ (by decide))]

/-- A value is slice `r` of a group when its five bits are the group's bits from `5 * r` on. -/
theorem slice_of_group_eq {payload : List Byte} {g r : Nat} {v : Value5}
    (h : ∀ b < 5, (payload.getD (5 * g + (5 * r + 4 - b) / 8) 0).getLsbD (7 - (5 * r + 4 - b) % 8) = v.getLsbD b) :
    slice payload (8 * g + r) = v :=
  BitVec.eq_of_getLsbD_eq fun b hb => (getLsbD_slice_of_group payload g r hb).trans (h b hb)

end Sys2Proof.Machine

namespace Sys2Proof
open Machine

/-- Settles O19: each row of Table 41-1 moves the five bits of its slice, and the masks keep no other. -/
theorem encodeGroupWiring : Obligations.EncodeGroupWiring := by
  rintro payload g _ _ _ _ _ rfl rfl rfl rfl rfl
  refine ⟨slice_of_group_eq (r := 0) ?_, slice_of_group_eq ?_, slice_of_group_eq ?_, slice_of_group_eq ?_,
    slice_of_group_eq ?_, slice_of_group_eq ?_, slice_of_group_eq ?_, slice_of_group_eq ?_⟩
  all_goals
    intro b hb
    interval_cases b
    all_goals simp

/-- Settles O20: the last slice of a tail takes its high bits from the last byte and its low bits from the missing one. -/
theorem partialGroupTail : Obligations.PartialGroupTail := by
  intro payload q
  obtain ⟨-, hcount⟩ := dataCharCountByGroups
  refine ⟨fun h => ⟨h ▸ hcount q 1 (by decide), slice_of_group_eq ?_⟩,
    fun h => ⟨h ▸ hcount q 2 (by decide), slice_of_group_eq ?_⟩,
    fun h => ⟨h ▸ hcount q 3 (by decide), slice_of_group_eq ?_⟩,
    fun h => ⟨h ▸ hcount q 4 (by decide), slice_of_group_eq ?_⟩⟩
  all_goals
    intro b hb
    rw [BitVec.getLsbD_append]
    interval_cases b
    all_goals simp [h]

end Sys2Proof
end

-- ==== The text of an encoder ====
section
/-! The characters ENC and ENCS write, by index (41_encode.md R134, R137, R142). -/

namespace Sys2Proof.Machine

/-- ENC writes the data characters and nothing else (41_encode.md R134). -/
theorem encodedText_false (sep : Byte) (payload : List Byte) :
    encodedText sep false payload =
      (List.range (dataCharCount payload.length)).map fun k => alpha (slice payload k) := by
  simp [encodedText, separatorAfter, List.map_eq_flatMap]

/-- Among the data characters before `m`, of `c` in all, a separator stands at each index 8 mod 9. -/
theorem getElem?_encodedText_upTo (sep : Byte) (payload : List Byte) {c m i : Nat} (hm : m ≤ c)
    (hi : i < m + min m (c - 1) / 8) :
    ((List.range m).flatMap fun k => alpha (slice payload k) :: separatorAfter sep true c k)[i]? =
      some (if i % 9 = 8 then sep else alpha (slice payload (i - i / 9))) := by
  induction m with
  | zero => omega
  | succ m ih =>
    have hlength := length_encodedText_upTo sep true payload c m
    rw [if_pos rfl, Nat.min_eq_left (by omega)] at hlength
    rw [List.range_succ, List.flatMap_append, List.flatMap_singleton]
    obtain hbefore | rfl | hafter : i < m + m / 8 ∨ i = m + m / 8 ∨ m + m / 8 < i := by omega
    · rw [List.getElem?_append_left (by omega)]
      exact ih (by omega) (by omega)
    · have hcount : m + m / 8 - (m + m / 8) / 9 = m := by omega
      rw [List.getElem?_append_right (by omega), hlength, if_neg (by omega), hcount, Nat.sub_self, List.getElem?_cons_zero]
    · have hlast : i = m + m / 8 + 1 := by omega
      rw [List.getElem?_append_right (by omega), hlength, if_pos (by omega), separatorAfter,
        if_pos ⟨rfl, by omega, by omega⟩, hlast, Nat.add_sub_cancel_left]
      rfl

/-- The text of ENCS by index (41_encode.md R137, R142). -/
theorem getElem?_encodedText_true (sep : Byte) (payload : List Byte) {i : Nat}
    (hi : i < (encodedText sep true payload).length) :
    (encodedText sep true payload)[i]? = some (if i % 9 = 8 then sep else alpha (slice payload (i - i / 9))) := by
  rw [length_encodedText, if_pos rfl] at hi
  exact getElem?_encodedText_upTo sep payload le_rfl (by omega)

/-- No data character is a legal separator, which has no value in the decode ROM (00_scope.md R7). -/
theorem alpha_ne_sep {sep : Byte} (hsep : sepLegal sep = true) (v : Value5) : alpha v ≠ sep :=
  fun heq => not_hasValue_of_sepLegal hsep (heq ▸ hasValue_alpha v)

/-- The separators in the text of ENCS are at the indices 8 mod 9 and nowhere else (41_encode.md R142). -/
theorem getElem?_encodedText_true_eq_sep_iff {sep : Byte} (hsep : sepLegal sep = true) (payload : List Byte) (i : Nat) :
    (encodedText sep true payload)[i]? = some sep ↔ i < (encodedText sep true payload).length ∧ i % 9 = 8 := by
  by_cases hi : i < (encodedText sep true payload).length
  · by_cases hmod : i % 9 = 8
    · rw [getElem?_encodedText_true sep payload hi, if_pos hmod]
      exact iff_of_true rfl ⟨hi, hmod⟩
    · rw [getElem?_encodedText_true sep payload hi, if_neg hmod]
      exact iff_of_false (fun heq => alpha_ne_sep hsep _ (Option.some.inj heq)) fun hboth => hmod hboth.2
  · simp [hi]

/-- Every character an encoder writes is a separator, which only ENCS writes, or a character of the alphabet. -/
theorem mem_encodedText {sep x : Byte} {withSep : Bool} {payload : List Byte} (h : x ∈ encodedText sep withSep payload) :
    (withSep = true ∧ x = sep) ∨ ∃ v, x = alpha v := by
  obtain ⟨k, -, hx⟩ := List.mem_flatMap.mp h
  rcases List.mem_cons.mp hx with rfl | hsep
  · exact .inr ⟨_, rfl⟩
  · rw [separatorAfter] at hsep
    split at hsep
    case isTrue hwrites => exact .inl ⟨hwrites.1, List.mem_singleton.mp hsep⟩
    case isFalse => cases hsep

/-- A character of the alphabet is a lowercase letter or a digit (40_lut.md R108). -/
theorem isLower_or_digit_alpha : ∀ v : Value5, isLower (alpha v) = true ∨ (0x30#8 ≤ alpha v ∧ alpha v ≤ 0x39#8) := by
  decide

/-- A character of the alphabet passes validation, whatever the separator. -/
theorem dec_alpha_ne_invalid (sep : Byte) (v : Value5) : dec sep (alpha v) ≠ .invalid :=
  fun hinvalid => ((dec_eq_invalid_iff _ _).mp hinvalid).1 (hasValue_alpha v)

end Sys2Proof.Machine
end

-- ==== The encoders and the empty input ====
section
/-! The end states of ENC and ENCS (41_encode.md R130 to R142), and of the commands that write `OBUF` on the empty input. -/

namespace Sys2Proof.Machine
variable {p : Params} {s t : State}

/-- A start whose length is in range and whose bytes are all written has an operand. -/
theorem exists_operandIs (hlen : s.ilen ≤ p.nMax) (hwritten : ∀ a < s.ilen, (Memory.read s.ibuf a).isSome = true) :
    ∃ operand, OperandIs p s operand := by
  cases hread : Memory.readFrom s.ibuf 0 s.ilen with
  | none =>
    obtain ⟨a, ha, hnone⟩ := (Memory.readFrom_eq_none _ _ _).mp hread
    rw [Nat.zero_add] at hnone
    exact absurd (hwritten a ha) (by simp [hnone])
  | some operand =>
    obtain ⟨hlength, hbytes⟩ := (Memory.readFrom_eq_some _ _ _ _).mp hread
    exact ⟨operand, hlength.symm, hlen, fun i hi => by simpa using hbytes i (by omega)⟩

/-- The operand of a start of length 0 is empty (41_encode.md R131, 42_decode.md R151). -/
theorem operandIs_nil (p : Params) (h : s.ilen = 0) : OperandIs p s [] :=
  ⟨h, h ▸ Nat.zero_le _, nofun⟩

/-- ENC and ENCS complete with the encoded text of every operand (41_encode.md R139, R140). -/
theorem encodeCommand_of_operandIs (withSep : Bool) {payload : List Byte} (h : OperandIs p s payload) :
    encodeCommand p withSep s = .next (s.okWith (encodedText p.sep withSep payload)) :=
  encodeCommand_eq_next.mpr ⟨payload, h, rfl⟩

/-- The output length of an encoder (41_encode.md R138). -/
theorem olen_of_encodeCommand {withSep : Bool} {payload : List Byte} (hoperand : OperandIs p s payload)
    (h : encodeCommand p withSep s = .next t) :
    t.olen = dataCharCount payload.length + if withSep then (dataCharCount payload.length - 1) / 8 else 0 := by
  rw [encodeCommand_of_operandIs withSep hoperand] at h
  cases h
  rw [State.okWith_olen, length_encodedText]

end Sys2Proof.Machine

namespace Sys2Proof
open Machine

/-- Settles O21: ENC writes one character for each slice, and the slices are the fields of the stream. -/
theorem encCompletes : Obligations.EncCompletes := by
  intro s payload hoperand
  have htext : encodedText Config.params.sep false payload =
      (List.range ((8 * payload.length + 4) / 5)).map fun k => alpha (take5 (bitsOf8 payload) k) := by
    simp only [encodedText_false, slice_eq_take5, dataCharCount]
  rw [← htext]
  exact encodeCommand_of_operandIs false hoperand

/-- Settles O22: the text of ENCS by index, with the slices read as fields of the stream. -/
theorem encsCompletes : Obligations.EncsCompletes := by
  intro s payload hoperand
  refine ⟨_, encodeCommand_of_operandIs true hoperand, length_encodedText _ _ _, fun i hi => ?_⟩
  rw [getElem?_encodedText_true _ _ hi, slice_eq_take5]

/-- Settles O23: the length is that of the encoded text, which `O_MAX` bounds and equals at `N_MAX` bytes. -/
theorem encodedLengthFormula : Obligations.EncodedLengthFormula := by
  intro p s t payload hoperand c
  have hmax := length_encodedText_le_oMax p true (operandIs_length_le hoperand)
  rw [length_encodedText, if_pos rfl] at hmax
  refine ⟨fun h => ?_, fun h => ?_⟩
  · have holen : t.olen = c := olen_of_encodeCommand hoperand h
    exact ⟨holen, by omega⟩
  · have holen : t.olen = c + (c - 1) / 8 := olen_of_encodeCommand hoperand h
    refine ⟨?_, holen, holen ▸ hmax, fun hfull => ?_⟩
    · rw [holen]
      split_ifs <;> omega
    · rw [holen, oMax_eq, ← hfull]

/-- Settles O24: the separators are at the indices 8 mod 9, and the index of the last character is not one of them. -/
theorem separatorsNeverTrailNorTouch : Obligations.SeparatorsNeverTrailNorTouch := by
  intro p s t hlegal h
  obtain ⟨payload, -, rfl⟩ := encodeCommand_eq_next.mp h
  have hlength := length_encodedText p.sep true payload
  rw [if_pos rfl] at hlength
  simp only [State.complete_obuf, State.complete_olen, Memory.read_ofBytes, ne_eq,
    getElem?_encodedText_true_eq_sep_iff hlegal]
  exact ⟨by omega, fun i => by omega, fun hlen => ⟨hlen, trivial⟩, fun i => And.right⟩

/-- Settles O25: every written operand has an encoded text, and both commands complete with it. -/
theorem encodingNeverFails : Obligations.EncodingNeverFails := by
  intro i s hi hlen hwritten
  obtain ⟨payload, hoperand⟩ := exists_operandIs hlen hwritten
  rcases hi with rfl | rfl
  · exact ⟨_, encodeCommand_of_operandIs false hoperand, rfl, rfl, rfl⟩
  · exact ⟨_, encodeCommand_of_operandIs true hoperand, rfl, rfl, rfl⟩

/-- Settles O26: a character is a separator or of the alphabet, whose characters are canonical and have values. -/
theorem encodedTextIsCanonicalAndValid : Obligations.EncodedTextIsCanonicalAndValid := by
  intro p withSep payload _
  refine ⟨fun x hx => ?_, (firstInvalid_eq_none _ _).mpr fun x hx => ?_⟩
  · rcases mem_encodedText hx with hsep | ⟨v, rfl⟩
    · exact .inl hsep
    · exact .inr ⟨⟨v, rfl⟩, isLower_or_digit_alpha v, Bool.eq_false_of_not_eq_true (not_isUpper_alpha v),
        correctionTarget_alpha v⟩
  · rcases mem_encodedText hx with ⟨-, rfl⟩ | ⟨v, rfl⟩
    · simp
    · exact dec_alpha_ne_invalid _ v

/-- Settles O27: the empty operand has no character and no byte, and DEC finds nothing invalid in it. -/
theorem emptyInputGivesEmptyOutput : Obligations.EmptyInputGivesEmptyOutput := by
  intro i s hi hempty
  have hoperand := operandIs_nil Config.params hempty
  rcases hi with rfl | rfl | rfl
  · exact encodeCommand_of_operandIs false hoperand
  · exact encodeCommand_of_operandIs true hoperand
  · exact decodeCommand_eq_next.mpr ⟨[], hoperand, rfl⟩

end Sys2Proof
end

-- ==== The bits of a decoded byte ====
section
/-! The bytes DEC cuts from the values, bit by bit, as the fields of the values' stream (42_decode.md R159, R160). -/

namespace Sys2Proof.Machine

/-- Bit `5 * k + t` of the values' stream is `W[k][4 - t]`, and 0 past the end. -/
theorem getD_bitsOf5 (values : List Value5) (k : Nat) {t : Nat} (ht : t < 5) :
    (bitsOf5 values).getD (5 * k + t) false = (values.getD k 0).getLsbD (4 - t) :=
  getD_flatMap_blocks (fun (v : Value5) t => v.getLsbD (4 - t)) values k BitVec.getLsbD_zero ht

/-- The bits of byte `j` of a stream, the earliest most significant. -/
theorem getLsbD_take8 (stream : List Bool) (j : Nat) {b : Nat} (hb : b < 8) :
    (take8 stream j).getLsbD b = stream.getD (8 * j + 7 - b) false := by
  simp only [take8, streamBit, BitVec.getLsbD_append]
  interval_cases b <;> simp

/-- A byte of a stream does not depend on the bits after it. -/
theorem take8_eq_of_take_eq {stream other : List Bool} {n j : Nat} (h : stream.take n = other.take n) (hj : 8 * j + 8 ≤ n) :
    take8 stream j = take8 other j := by
  apply BitVec.eq_of_getLsbD_eq
  intro b hb
  have hi : 8 * j + 7 - b < n := by omega
  rw [getLsbD_take8 _ _ hb, getLsbD_take8 _ _ hb, List.getD_eq_getElem?_getD, List.getD_eq_getElem?_getD,
    ← List.getElem?_take_of_lt hi, h, List.getElem?_take_of_lt hi]

/-- The bits of the byte the shift of R150 cuts are those of the values, five to a value. -/
theorem getLsbD_unpackByte (w : Nat → Value5) (j : Nat) {b : Nat} (hb : b < 8) :
    (unpackByte w j).getLsbD b = (w ((8 * j + 7 - b) / 5)).getLsbD (4 - (8 * j + 7 - b) % 5) := by
  simp only [unpackByte, BitVec.getLsbD_setWidth, BitVec.getLsbD_ushiftRight, BitVec.getLsbD_append, hb, decide_true,
    Bool.true_and]
  obtain hthird | hsecond | hfirst :
      (8 * j + 7 - b) / 5 = 8 * j / 5 + 2 ∨ (8 * j + 7 - b) / 5 = 8 * j / 5 + 1 ∨ (8 * j + 7 - b) / 5 = 8 * j / 5 := by
    omega
  · rw [hthird, if_pos (by omega)]
    congr 1
    omega
  · rw [hsecond, if_neg (by omega), if_pos (by omega)]
    congr 1
    omega
  · rw [hfirst, if_neg (by omega), if_neg (by omega)]
    congr 1
    omega

/-- A byte depends on the values that contribute a bit to it only (42_decode.md R157, R159). -/
theorem unpackByte_congr {w v : Nat → Value5} {j : Nat}
    (h : ∀ k, 8 * j / 5 ≤ k → k ≤ (8 * j + 7) / 5 → w k = v k) : unpackByte w j = unpackByte v j := by
  apply BitVec.eq_of_getLsbD_eq
  intro b hb
  rw [getLsbD_unpackByte _ _ hb, getLsbD_unpackByte _ _ hb, h _ (by omega) (by omega)]

/-- The shifts cut the values' stream into bytes, past its end too (42_decode.md R159). -/
theorem unpackByte_eq_take8 (values : List Value5) (j : Nat) :
    unpackByte (fun k => values.getD k 0) j = take8 (bitsOf5 values) j := by
  apply BitVec.eq_of_getLsbD_eq
  intro b hb
  have hindex : 8 * j + 7 - b = 5 * ((8 * j + 7 - b) / 5) + (8 * j + 7 - b) % 5 := by omega
  rw [getLsbD_unpackByte _ _ hb, getLsbD_take8 _ _ hb, hindex, getD_bitsOf5 _ _ (Nat.mod_lt _ (by decide)), ← hindex]

/-- A byte is byte `r` of a group when its eight bits are the group's bits from `8 * r` on. -/
theorem unpackByte_of_group_eq {w : Nat → Value5} {g r : Nat} {x : Byte}
    (h : ∀ b < 8, (w (8 * g + (8 * r + 7 - b) / 5)).getLsbD (4 - (8 * r + 7 - b) % 5) = x.getLsbD b) :
    unpackByte w (5 * g + r) = x := by
  apply BitVec.eq_of_getLsbD_eq
  intro b hb
  have hvalue : (8 * (5 * g + r) + 7 - b) / 5 = 8 * g + (8 * r + 7 - b) / 5 := by omega
  have hbit : (8 * (5 * g + r) + 7 - b) % 5 = (8 * r + 7 - b) % 5 := by omega
  rw [getLsbD_unpackByte _ _ hb, hvalue, hbit, h b hb]

end Sys2Proof.Machine

namespace Sys2Proof
open Machine

/-- Settles O34: the bits of an unpacked byte are stream bits, and the byte count rounds down. -/
theorem unpackedByteIsBitStreamField : Obligations.UnpackedByteIsBitStreamField :=
  ⟨fun values j _ => unpackByte_eq_take8 values j, fun m => by rw [byteCount]; omega⟩

/-- Settles O35: each row of Table 42-2 moves the eight bits of its byte, and the masks keep no other. -/
theorem decodeGroupWiring : Obligations.DecodeGroupWiring := by
  rintro w g _ _ _ _ _ _ _ _ rfl rfl rfl rfl rfl rfl rfl rfl
  refine ⟨unpackByte_of_group_eq (r := 0) ?_, unpackByte_of_group_eq ?_, unpackByte_of_group_eq ?_,
    unpackByte_of_group_eq ?_, unpackByte_of_group_eq ?_⟩
  all_goals
    intro b hb
    interval_cases b
    all_goals simp

end Sys2Proof
end

-- ==== The data characters of a text ====
section
/-! Where the data characters of a text stand, their values, and what DEC ends with on a text that passes (42_decode.md
R153 to R162, R166). -/

namespace Sys2Proof.Machine
variable {p : Params} {s : State} {text other : List Byte}

/-! ### The positions -/

theorem isFormatted_iff (sep : Byte) (text : List Byte) :
    isFormatted sep text = true ↔ 9 ≤ text.length ∧ text[8]? = some sep := by
  simp [isFormatted]

/-- A text with `SEP` at index 8 is long enough to be separator-formatted. -/
theorem isFormatted_iff_getElem? (sep : Byte) (text : List Byte) :
    isFormatted sep text = true ↔ text[8]? = some sep := by
  rw [isFormatted_iff, and_iff_right_iff_imp]
  intro hsep
  obtain ⟨hlen, -⟩ := List.getElem?_eq_some_iff.mp hsep
  exact hlen

@[simp] theorem dataCount_true (len : Nat) : dataCount true len = len - len / 9 := rfl
@[simp] theorem dataCount_false (len : Nat) : dataCount false len = len := rfl
@[simp] theorem dataIndex_true (k : Nat) : dataIndex true k = k + k / 8 := rfl
@[simp] theorem dataIndex_false (k : Nat) : dataIndex false k = k := rfl

/-- Every data character is a character of the text (42_decode.md R154). -/
theorem dataIndex_lt {formatted : Bool} {len k : Nat} (h : k < dataCount formatted len) : dataIndex formatted k < len := by
  cases formatted with
  | false => simpa using h
  | true =>
    rw [dataCount_true] at h
    rw [dataIndex_true]
    omega

/-- The data characters of formatted text avoid the skip positions (42_decode.md R154, R158). -/
theorem dataIndex_true_mod_ne (k : Nat) : dataIndex true k % 9 ≠ 8 := by
  rw [dataIndex_true]
  omega

/-! ### The values -/

theorem dataValue_of_lt (p : Params) {k : Nat} (h : k < dataCount (isFormatted p.sep text) text.length) :
    dataValue p text k = val5 p.sepAsData (dec p.sep (text.getD (dataIndex (isFormatted p.sep text) k) 0)) := if_pos h

theorem dataValue_of_le (p : Params) {k : Nat} (h : dataCount (isFormatted p.sep text) text.length ≤ k) :
    dataValue p text k = 0 := if_neg (Nat.not_lt.mpr h)

/-- The value of a data character by its ROM word, for a word that passes (42_decode.md R156, R157). -/
theorem val5_cases {sep ch : Byte} (sepAsData : Value5) (h : dec sep ch ≠ .invalid) :
    (∃ v, dec sep ch = .value v ∧ val5 sepAsData (dec sep ch) = v) ∨ (ch = sep ∧ val5 sepAsData (dec sep ch) = sepAsData) := by
  cases hword : dec sep ch with
  | value v => exact .inl ⟨v, rfl, rfl⟩
  | ignorable => exact .inr ⟨(dec_eq_ignorable_iff sep ch).mp hword, rfl⟩
  | invalid => exact absurd hword h

/-- `SEP_AS_DATA` is the value of no character but the separator (42_decode.md R157). -/
theorem val5_eq_of_ne_sep {sep ch : Byte} (h : dec sep ch ≠ .invalid) (hne : ch ≠ sep) (a b : Value5) :
    val5 a (dec sep ch) = val5 b (dec sep ch) := by
  rcases val5_cases a h with ⟨v, hword, -⟩ | ⟨hsep, -⟩
  · rw [hword, val5, val5]
  · exact absurd hsep hne

/-- On two blocks with one separator a data character that is no separator has one value. -/
theorem dataValue_eq_of_ne_sep {q : Params} (hsep : q.sep = p.sep) (hpass : AllPass p text) {k : Nat}
    (hne : text[dataIndex (isFormatted p.sep text) k]? ≠ some p.sep) : dataValue p text k = dataValue q text k := by
  by_cases hk : k < dataCount (isFormatted p.sep text) text.length
  · have hindex := dataIndex_lt hk
    rw [List.getElem?_eq_getElem hindex] at hne
    rw [dataValue_of_lt p hk, dataValue_of_lt q (hsep ▸ hk), hsep, List.getD_eq_getElem _ _ hindex]
    exact val5_eq_of_ne_sep (hpass _ (List.getElem_mem hindex)) (fun heq => hne (congrArg some heq)) _ _
  · rw [dataValue_of_le p (Nat.not_lt.mp hk), dataValue_of_le q (hsep ▸ Nat.not_lt.mp hk)]

/-- W: the values of the data characters, in order (42_decode.md R156); `decodedBytes_eq_take8` ties it to DEC. -/
def dataValues (p : Params) (text : List Byte) : List Value5 :=
  (List.range (dataCount (isFormatted p.sep text) text.length)).map (dataValue p text)

@[simp] theorem length_dataValues (p : Params) (text : List Byte) :
    (dataValues p text).length = dataCount (isFormatted p.sep text) text.length := by
  simp [dataValues]

theorem getElem?_dataValues (p : Params) {k : Nat} (h : k < dataCount (isFormatted p.sep text) text.length) :
    (dataValues p text)[k]? = some (dataValue p text k) := by
  simp [dataValues, h]

theorem getD_dataValues (p : Params) (text : List Byte) (k : Nat) : (dataValues p text).getD k 0 = dataValue p text k := by
  by_cases h : k < dataCount (isFormatted p.sep text) text.length
  · rw [List.getD_eq_getElem?_getD, getElem?_dataValues p h, Option.getD_some]
  · rw [List.getD_eq_default _ _ (by simpa using h), dataValue_of_le p (Nat.not_lt.mp h)]

/-! ### The bytes -/

/-- DEC writes the bytes of the values' stream (42_decode.md R159). -/
theorem decodedBytes_eq_take8 (p : Params) (text : List Byte) :
    decodedBytes p text =
      (List.range (byteCount (dataCount (isFormatted p.sep text) text.length))).map
        fun j => take8 (bitsOf5 (dataValues p text)) j := by
  simp only [decodedBytes, ← unpackByte_eq_take8, getD_dataValues]

theorem getElem?_decodedBytes (p : Params) {j : Nat} (h : j < (decodedBytes p text).length) :
    (decodedBytes p text)[j]? = some (unpackByte (dataValue p text) j) := by
  rw [decodedBytes_length] at h
  simp [decodedBytes, h]

/-- What DEC reads of a text: its length, its format and the ROM words of its data characters. -/
theorem decodedBytes_congr (hlen : text.length = other.length) (hformat : isFormatted p.sep text = isFormatted p.sep other)
    (hword : ∀ k < dataCount (isFormatted p.sep text) text.length,
      dec p.sep (text.getD (dataIndex (isFormatted p.sep text) k) 0) =
        dec p.sep (other.getD (dataIndex (isFormatted p.sep text) k) 0)) :
    decodedBytes p text = decodedBytes p other := by
  have hvalue : dataValue p text = dataValue p other := by
    funext k
    by_cases hk : k < dataCount (isFormatted p.sep text) text.length
    · rw [dataValue_of_lt p hk, hword k hk, hformat, dataValue_of_lt p (hlen ▸ hformat ▸ hk)]
    · rw [dataValue_of_le p (Nat.not_lt.mp hk), dataValue_of_le p (hlen ▸ hformat ▸ Nat.not_lt.mp hk)]
  rw [decodedBytes, decodedBytes, hvalue, hformat, hlen]

/-! ### The end of DEC -/

/-- A command that validates first completes on a text that passes (43_validate.md R181). -/
theorem validated_of_allPass (s : State) (out : List Byte) (h : AllPass p text) :
    validated p.sep s text out = s.okWith out := by
  rw [validated, (firstInvalid_eq_none _ _).mpr h, State.complete_eq_okWith]

theorem decodeCommand_of_operandIs (h : OperandIs p s text) :
    decodeCommand p s = .next (validated p.sep s text (decodedBytes p text)) :=
  decodeCommand_eq_next.mpr ⟨text, h, rfl⟩

/-- DEC completes on every written text that passes (42_decode.md R150, R162). -/
theorem decodeCommand_of_allPass (hoperand : OperandIs p s text) (hpass : AllPass p text) :
    decodeCommand p s = .next (s.okWith (decodedBytes p text)) := by
  rw [decodeCommand_of_operandIs hoperand, validated_of_allPass s _ hpass]

end Sys2Proof.Machine

namespace Sys2Proof
open Machine

/-- Settles O29: the values are those of the data characters, each of which passes. -/
theorem decCompletes : Obligations.DecCompletes := by
  intro s text hoperand hpass formatted
  have hformat : formatted ↔ isFormatted Config.params.sep text = true := (isFormatted_iff _ _).symm
  simp only [hformat, Bool.not_eq_true]
  refine ⟨dataCount (isFormatted Config.params.sep text) text.length, fun h => by rw [h, dataCount_true],
    fun h => by rw [h, dataCount_false], dataValues Config.params text, length_dataValues _ _, fun k hk => ?_, ?_⟩
  · have hindex := dataIndex_lt hk
    refine ⟨dataIndex (isFormatted Config.params.sep text) k, text[dataIndex (isFormatted Config.params.sep text) k],
      fun h => by rw [h, dataIndex_true], fun h => by rw [h, dataIndex_false], List.getElem?_eq_getElem hindex, ?_⟩
    rw [getElem?_dataValues _ hk, dataValue_of_lt _ hk, List.getD_eq_getElem _ _ hindex]
    simpa using val5_cases Config.params.sepAsData (hpass _ (List.getElem_mem hindex))
  · rw [← byteCount, ← decodedBytes_eq_take8]
    exact decodeCommand_of_allPass hoperand hpass

/-- Settles O33: DEC completes on every text that passes, whatever its length, with the bytes its format gives. -/
theorem decodedLengthForEveryText : Obligations.DecodedLengthForEveryText := by
  intro p s text hoperand hpass
  refine ⟨_, decodeCommand_of_allPass hoperand hpass, rfl, ?_, ?_⟩
  · intro h
    rw [State.okWith_olen, decodedBytes_length, (isFormatted_iff _ _).mpr h, dataCount_true, byteCount]
  · intro h
    rw [State.okWith_olen, decodedBytes_length, Bool.eq_false_of_not_eq_true (mt (isFormatted_iff _ _).mp h),
      dataCount_false, byteCount]

/-- Settles O36: validation does not read `SEP_AS_DATA`, and the values of a byte without a separator do not hold it. -/
theorem sepAsDataReachesOnlyItsBytes : Obligations.SepAsDataReachesOnlyItsBytes := by
  intro p q s t u text hsep hmax hoperand ht hu
  have hoperand' : OperandIs q s text := by rwa [OperandIs, hmax]
  obtain rfl := Host.Outcome.next.inj ((decodeCommand_of_operandIs hoperand).symm.trans ht)
  obtain rfl := Host.Outcome.next.inj ((decodeCommand_of_operandIs hoperand').symm.trans hu)
  have hlen : (decodedBytes p text).length = (decodedBytes q text).length := by
    rw [decodedBytes_length, decodedBytes_length, hsep]
  rw [hsep]
  cases hfirst : firstInvalid p.sep text with
  | some found => simp [validated, hfirst]
  | none =>
    have hpass : AllPass p text := (firstInvalid_eq_none _ _).mp hfirst
    rw [validated_of_allPass s _ hpass, validated_of_allPass s _ hpass]
    refine ⟨rfl, hlen, rfl, rfl, fun j hj hdata => ?_⟩
    rw [State.okWith_olen] at hj
    have hbyte : unpackByte (dataValue p text) j = unpackByte (dataValue q text) j :=
      unpackByte_congr fun k hfrom hto => dataValue_eq_of_ne_sep hsep hpass (hdata k hfrom hto)
    rw [State.okWith_obuf, State.okWith_obuf, Memory.read_ofBytes, Memory.read_ofBytes, getElem?_decodedBytes p hj,
      getElem?_decodedBytes q (hlen ▸ hj), hbyte]

/-- Settles O37: no data character of formatted text stands at a skip position. -/
theorem laterSkipPositionsUnread : Obligations.LaterSkipPositionsUnread := by
  intro p s text other hlen htext hother hpass hpass' heq
  have hformat := (isFormatted_iff_getElem? p.sep text).mpr htext
  have hbytes : decodedBytes p text = decodedBytes p other := by
    refine decodedBytes_congr hlen (hformat.trans ((isFormatted_iff_getElem? p.sep other).mpr hother).symm) fun k _ => ?_
    rw [hformat, List.getD_eq_getElem?_getD, List.getD_eq_getElem?_getD, heq _ (dataIndex_true_mod_ne k)]
  rw [validated_of_allPass s _ hpass, validated_of_allPass s _ hpass', hbytes]

/-- Settles O38: every byte DEC writes is a field of the stream's first 8n bits. -/
theorem trailingBitsDroppedUnchecked : Obligations.TrailingBitsDroppedUnchecked := by
  rintro p s text other _ hlen hformat rfl hpass hpass' hbits
  rw [← dataValues, hformat, hlen, ← dataValues] at hbits
  have hbytes : decodedBytes p text = decodedBytes p other := by
    rw [decodedBytes_eq_take8, decodedBytes_eq_take8, hformat, hlen, List.map_inj_left]
    intro j hj
    rw [List.mem_range, byteCount] at hj
    exact take8_eq_of_take_eq hbits (by omega)
  rw [validated_of_allPass s _ hpass, validated_of_allPass s _ hpass', hbytes]
  exact ⟨rfl, rfl⟩

end Sys2Proof
end

-- ==== Decoding an encoder's text ====
section
/-! DEC undoes ENC and ENCS, on their text and on every documented variant of it (42_decode.md R163 to R167). -/

namespace Sys2Proof.Machine
variable {p : Params} {s : State} {text other : List Byte}

/-! ### The lengths and the format -/

/-- The text of ENC never looks formatted: no data character is the separator. -/
theorem isFormatted_encodedText_false {sep : Byte} (hsep : sepLegal sep = true) (payload : List Byte) :
    isFormatted sep (encodedText sep false payload) = false := by
  rw [Bool.eq_false_iff, ne_eq, isFormatted_iff_getElem?]
  intro hread
  rcases mem_encodedText (List.mem_of_getElem? hread) with ⟨hwith, -⟩ | ⟨v, hv⟩
  · cases hwith
  · exact alpha_ne_sep hsep v hv.symm

/-- The text of ENCS looks formatted exactly when it has a separator, which the ninth data character brings. -/
theorem isFormatted_encodedText_true {sep : Byte} (hsep : sepLegal sep = true) (payload : List Byte) :
    isFormatted sep (encodedText sep true payload) = decide (9 ≤ dataCharCount payload.length) := by
  rw [Bool.eq_iff_iff, isFormatted_iff_getElem?, getElem?_encodedText_true_eq_sep_iff hsep, length_encodedText, if_pos rfl,
    decide_eq_true_iff]
  omega

/-- The format flag of an encoder's text (42_decode.md R165). -/
theorem isFormatted_encodedText {sep : Byte} (hsep : sepLegal sep = true) (withSep : Bool) (payload : List Byte) :
    isFormatted sep (encodedText sep withSep payload) = (withSep && decide (9 ≤ dataCharCount payload.length)) := by
  cases withSep with
  | false => exact isFormatted_encodedText_false hsep payload
  | true => exact isFormatted_encodedText_true hsep payload

/-- The data characters DEC counts are those the encoder wrote (42_decode.md R165). -/
theorem dataCount_encodedText {sep : Byte} (hsep : sepLegal sep = true) (withSep : Bool) (payload : List Byte) :
    dataCount (isFormatted sep (encodedText sep withSep payload)) (encodedText sep withSep payload).length =
      dataCharCount payload.length := by
  cases withSep with
  | false =>
    rw [isFormatted_encodedText_false hsep, dataCount_false, length_encodedText, if_neg Bool.false_ne_true, Nat.add_zero]
  | true =>
    rw [isFormatted_encodedText_true hsep, length_encodedText, if_pos rfl]
    by_cases hnine : 9 ≤ dataCharCount payload.length
    · rw [decide_eq_true hnine, dataCount_true]
      omega
    · rw [decide_eq_false hnine, dataCount_false]
      omega

theorem byteCount_dataCharCount (n : Nat) : byteCount (dataCharCount n) = n := by
  rw [byteCount, dataCharCount]
  omega

/-! ### The values -/

/-- Where DEC looks for data character `k` of an encoder's text, the encoder wrote the character of slice `k`. -/
theorem getElem?_encodedText_dataIndex {sep : Byte} (hsep : sepLegal sep = true) (withSep : Bool) {payload : List Byte}
    {k : Nat} (hk : k < dataCharCount payload.length) :
    (encodedText sep withSep payload)[dataIndex (isFormatted sep (encodedText sep withSep payload)) k]? =
      some (alpha (slice payload k)) := by
  have hindex := dataIndex_lt ((dataCount_encodedText hsep withSep payload).symm ▸ hk)
  cases withSep with
  | false =>
    rw [isFormatted_encodedText_false hsep, dataIndex_false, encodedText_false, List.getElem?_map, List.getElem?_range hk,
      Option.map_some]
  | true =>
    rw [getElem?_encodedText_true _ _ hindex, isFormatted_encodedText_true hsep]
    by_cases hnine : 9 ≤ dataCharCount payload.length
    · have hslice : k + k / 8 - (k + k / 8) / 9 = k := by omega
      rw [decide_eq_true hnine, dataIndex_true, if_neg (by omega), hslice]
    · have hslice : k - k / 9 = k := by omega
      rw [decide_eq_false hnine, dataIndex_false, if_neg (by omega), hslice]

theorem dec_alpha (hlegal : p.legal = true) (v : Value5) : dec p.sep (alpha v) = .value v := by
  obtain ⟨hinverse, -⟩ := decodeRomInvertsAlphabet p hlegal
  exact hinverse v

/-- A slice past the last data character is 0, as the payload's stream has ended. -/
theorem slice_of_le {payload : List Byte} {k : Nat} (hk : dataCharCount payload.length ≤ k) : slice payload k = 0 := by
  apply BitVec.eq_of_getLsbD_eq
  intro b hb
  rw [dataCharCount] at hk
  have hend : (bitsOf8 payload).length ≤ 5 * k + 4 - b := by
    rw [length_bitsOf8]
    omega
  rw [getLsbD_slice _ _ hb, List.getD_eq_default _ _ hend]
  exact BitVec.getLsbD_zero.symm

/-- The values DEC reads from an encoder's text are the slices the encoder took. -/
theorem dataValue_encodedText (hlegal : p.legal = true) (withSep : Bool) (payload : List Byte) :
    dataValue p (encodedText p.sep withSep payload) = slice payload := by
  funext k
  have hcount := dataCount_encodedText hlegal withSep payload
  by_cases hk : k < dataCharCount payload.length
  · rw [dataValue_of_lt p (hcount.symm ▸ hk), List.getD_eq_getElem?_getD, getElem?_encodedText_dataIndex hlegal withSep hk,
      Option.getD_some, dec_alpha hlegal, val5]
  · rw [dataValue_of_le p (hcount.symm ▸ Nat.not_lt.mp hk), slice_of_le (Nat.not_lt.mp hk)]

/-! ### The bytes -/

/-- Unpacking the slices of a payload gives its bytes: both read the bit `8 * j + 7 - b` of one stream. -/
theorem unpackByte_slice (payload : List Byte) (j : Nat) : unpackByte (slice payload) j = payload.getD j 0 := by
  apply BitVec.eq_of_getLsbD_eq
  intro b hb
  have hslice : 5 * ((8 * j + 7 - b) / 5) + 4 - (4 - (8 * j + 7 - b) % 5) = 8 * j + (7 - b) := by omega
  have hbit : 7 - (7 - b) = b := by omega
  rw [getLsbD_unpackByte _ _ hb, getLsbD_slice _ _ (by omega), hslice, getD_bitsOf8 _ _ (by omega), hbit]

/-- Decoding an encoder's text gives the payload (42_decode.md R163). -/
theorem decodedBytes_encodedText (hlegal : p.legal = true) (withSep : Bool) (payload : List Byte) :
    decodedBytes p (encodedText p.sep withSep payload) = payload := by
  have hlen : (decodedBytes p (encodedText p.sep withSep payload)).length = payload.length := by
    rw [decodedBytes_length, dataCount_encodedText hlegal, byteCount_dataCharCount]
  refine List.ext_getElem? fun j => ?_
  by_cases hj : j < payload.length
  · rw [getElem?_decodedBytes p (hlen.symm ▸ hj), dataValue_encodedText hlegal, unpackByte_slice, List.getD_eq_getElem _ _ hj,
      List.getElem?_eq_getElem hj]
  · rw [List.getElem?_eq_none (by omega), List.getElem?_eq_none (by omega)]

/-- An encoder's text passes validation (41_encode.md R141). -/
theorem allPass_encodedText (hlegal : p.legal = true) (withSep : Bool) (payload : List Byte) :
    AllPass p (encodedText p.sep withSep payload) := by
  obtain ⟨-, hnone⟩ := encodedTextIsCanonicalAndValid p withSep payload hlegal
  exact (firstInvalid_eq_none _ _).mp hnone

/-! ### Copying the output back -/

@[simp] theorem State.copyBack_ilen (s : State) : s.copyBack.ilen = s.olen := rfl
@[simp] theorem State.copyBack_ibuf (s : State) :
    s.copyBack.ibuf = s.obuf.foldl (fun m c => Memory.write m c.1 c.2) s.ibuf := rfl

/-- Writing the cells of `out` one by one gives their bytes and leaves every other byte. -/
theorem Memory.read_foldl_write_ofBytesAt (m : Memory) (a : Nat) (out : List Byte) (i : Nat) :
    Memory.read ((Memory.ofBytesAt a out).foldl (fun m c => Memory.write m c.1 c.2) m) i =
      (Memory.read (Memory.ofBytesAt a out) i).or (Memory.read m i) := by
  induction out generalizing m a with
  | nil => rfl
  | cons v out ih =>
    rw [Memory.ofBytesAt, List.foldl_cons, ih, Memory.read]
    split
    case isTrue heq =>
      rw [heq, Memory.read_write_same, Memory.read_ofBytesAt, if_neg (by omega), Option.none_or, Option.some_or]
    case isFalse hne => rw [Memory.read_write_other m v hne]

/-- After the copy the operand is the output of the command before it (70_reset_and_hazards.md R224). -/
theorem operandIs_copyBack {out : List Byte} (hlen : out.length ≤ p.nMax) : OperandIs p (s.okWith out).copyBack out := by
  have hilen : (s.okWith out).copyBack.ilen = out.length := by rw [State.copyBack_ilen, State.okWith_olen]
  refine ⟨hilen, hilen ▸ hlen, fun i hi => ?_⟩
  rw [State.copyBack_ibuf, State.okWith_obuf, State.okWith_ibuf, Memory.ofBytes, Memory.read_foldl_write_ofBytesAt,
    ← Memory.ofBytes, Memory.read_ofBytes, List.getElem?_eq_getElem hi, Option.some_or]

/-! ### The documented variants -/

/-- Where the separators of a text stand is read from its ROM words (40_lut.md R105). -/
theorem getElem?_eq_sep_iff (sep : Byte) (text : List Byte) (i : Nat) :
    text[i]? = some sep ↔ (text.map (dec sep))[i]? = some .ignorable := by
  simp [dec_eq_ignorable_iff]

/-- DEC reads a text through its ROM words only. -/
theorem decodedBytes_congr_of_map_dec (h : text.map (dec p.sep) = other.map (dec p.sep)) :
    decodedBytes p text = decodedBytes p other := by
  have hlen : text.length = other.length := by simpa using congrArg List.length h
  have hformat : isFormatted p.sep text = isFormatted p.sep other := by
    rw [Bool.eq_iff_iff, isFormatted_iff_getElem?, isFormatted_iff_getElem?, getElem?_eq_sep_iff, getElem?_eq_sep_iff, h]
  refine decodedBytes_congr hlen hformat fun k _ => ?_
  simpa only [List.getD_map] using congrArg (List.getD · (dataIndex _ k) (dec p.sep 0)) h

/-- Validation too reads a text through its ROM words only. -/
theorem allPass_iff_notMem (p : Params) (text : List Byte) : AllPass p text ↔ .invalid ∉ text.map (dec p.sep) := by
  simp [AllPass]

/-- A correction character has the value of its target (40_lut.md R103). -/
theorem decStep5_of_correctionTarget {x y : Byte} (h : correctionTarget y = some x) :
    HasValue x ∧ HasValue y ∧ decStep5 y = decStep5 x := by
  have hpair : y = 0x30 ∧ x = 0x6F ∨ y = 0x32 ∧ x = 0x7A ∨ y = 0x6C ∧ x = 0x31 ∨ y = 0x7C ∧ x = 0x31 ∨
      y = 0x76 ∧ x = 0x75 := by
    grind [correctionTarget]
  rcases hpair with ⟨rfl, rfl⟩ | ⟨rfl, rfl⟩ | ⟨rfl, rfl⟩ | ⟨rfl, rfl⟩ | ⟨rfl, rfl⟩
  all_goals decide

/-- An uppercase form has the value of its lowercase letter (40_lut.md R104). -/
theorem decStep5_of_upperForm {x y : Byte} (h : upperForm x = some y) :
    HasValue x ∧ HasValue y ∧ decStep5 y = decStep5 x := by
  by_cases hlower : isLower x = true
  · rw [upperForm, if_pos hlower, Option.some.injEq] at h
    subst h
    have hrange := (isLower_iff x).mp hlower
    exact ⟨.inr (.inr (.inl hrange)), .inr (.inl (by bv_omega)), decStep5_sub_of_isLower hlower⟩
  · rw [upperForm_of_not_isLower hlower] at h
    cases h

/-- A documented variant is the character itself, or both have a value and it is the same one (42_decode.md R164). -/
theorem variant_cases {x y : Byte} (h : Variant x y) : y = x ∨ (HasValue x ∧ HasValue y ∧ decStep5 y = decStep5 x) := by
  rcases h with heq | hupper | hcorrection | ⟨rfl, rfl⟩ | ⟨rfl, rfl⟩
  · exact .inl heq
  · exact .inr (decStep5_of_upperForm hupper)
  · exact .inr (decStep5_of_correctionTarget hcorrection)
  · exact .inr (by decide)
  · exact .inr (by decide)

/-- A documented variant has the ROM word of the character it stands for: a legal separator takes the slot of neither. -/
theorem dec_of_variant {sep x y : Byte} (hsep : sepLegal sep = true) (h : Variant x y) : dec sep y = dec sep x := by
  rcases variant_cases h with rfl | ⟨hx, hy, hvalue⟩
  · rfl
  · rw [dec_of_hasValue hsep hx, dec_of_hasValue hsep hy, hvalue]

theorem map_dec_of_variants {sep : Byte} (hsep : sepLegal sep = true) (h : List.Forall₂ Variant text other) :
    other.map (dec sep) = text.map (dec sep) := by
  induction h with
  | nil => rfl
  | cons hchar _ ih => rw [List.map_cons, List.map_cons, dec_of_variant hsep hchar, ih]

/-! ### Two characters -/

/-- A text of two characters is not formatted, and both carry data. -/
theorem dataValues_pair {x y : Byte} {v w : Value5} (hx : dec p.sep x = .value v) (hy : dec p.sep y = .value w) :
    dataValues p [x, y] = [v, w] := by
  have hvalues : dataValues p [x, y] = [val5 p.sepAsData (dec p.sep x), val5 p.sepAsData (dec p.sep y)] := rfl
  rw [hvalues, hx, hy, val5, val5]

theorem validated_pair (s : State) {x y : Byte} {v w : Value5} (hx : dec p.sep x = .value v) (hy : dec p.sep y = .value w) :
    validated p.sep s [x, y] (decodedBytes p [x, y]) = s.okWith [take8 (bitsOf5 [v, w]) 0] := by
  have hpass : AllPass p [x, y] := by simp [AllPass, hx, hy]
  have hcount : dataCount (isFormatted p.sep [x, y]) [x, y].length = 2 := rfl
  rw [validated_of_allPass s _ hpass, decodedBytes_eq_take8, dataValues_pair hx hy, hcount]
  rfl

end Sys2Proof.Machine

namespace Sys2Proof
open Machine

/-- Settles O40: a separator is written exactly when there are nine data characters, and it is then at index 8. -/
theorem decodeLengthInvertsEncode : Obligations.DecodeLengthInvertsEncode := by
  intro p withSep payload hlegal text
  have hcount := dataCount_encodedText hlegal withSep payload
  refine ⟨?_, hcount, by rw [hcount, byteCount_dataCharCount]⟩
  rw [isFormatted_encodedText hlegal, Bool.and_eq_true, decide_eq_true_iff]

/-- Settles O41: the copy makes the encoder's text the operand, and DEC reads the encoder's slices from it. -/
theorem decodeUndoesEncode : Obligations.DecodeUndoesEncode := by
  intro p i s payload hlegal hi hoperand hfits
  have hencode : runWith p i s = .next (s.okWith (encodedText p.sep (i == .encs) payload)) := by
    rcases hi with rfl | rfl
    · exact encodeCommand_of_operandIs false hoperand
    · exact encodeCommand_of_operandIs true hoperand
  have hdecode := decodeCommand_of_allPass (operandIs_copyBack (s := s) hfits) (allPass_encodedText hlegal _ _)
  rw [decodedBytes_encodedText hlegal] at hdecode
  exact ⟨_, _, hencode, hdecode, rfl, rfl, fun a _ => by rw [State.okWith_obuf, Memory.read_ofBytes]⟩

/-- Settles O42: the variants have the ROM words of the encoder's characters, and DEC reads nothing else. -/
theorem variantsStillDecode : Obligations.VariantsStillDecode := by
  intro p withSep s payload text hlegal hoperand hvariants
  have hwords : text.map (dec p.sep) = (encodedText p.sep withSep payload).map (dec p.sep) :=
    map_dec_of_variants hlegal hvariants
  have hpass : AllPass p text := by
    rw [allPass_iff_notMem, hwords, ← allPass_iff_notMem]
    exact allPass_encodedText hlegal withSep payload
  have hdecode := decodeCommand_of_allPass hoperand hpass
  rwa [decodedBytes_congr_of_map_dec hwords, decodedBytes_encodedText hlegal] at hdecode

/-- Settles O39: 'h' and '9' differ only in bits that fill no byte. -/
theorem decodeIsNotInjective : Obligations.DecodeIsNotInjective := by
  intro p s hlegal
  have hnine : dec p.sep 0x39 = .value 31 := dec_alpha hlegal 31
  have hh : dec p.sep 0x68 = .value 28 := dec_alpha hlegal 28
  rw [validated_pair s hnine hh, validated_pair s hnine hnine]
  exact ⟨rfl, rfl⟩

end Sys2Proof
end

-- ==== The end of VAL, and its agreement with DEC ====
section
/-! What the scan finds in a text, and that VAL and DEC end alike by it (43_validate.md R180 to R185). -/

namespace Sys2Proof.Machine
variable {p : Params} {s : State} {text : List Byte}

/-! ### The scan -/

theorem DecWord.passes_iff (w : DecWord) : w.passes = true ↔ w ≠ .invalid := by
  cases w <;> simp [DecWord.passes]

/-- The converse of `scanFrom_eq_some`: the scan stops at the invalid character before which every other one passes. -/
theorem scanFrom_of_firstInvalid {sep ch : Byte} (pos : Nat) {k : Nat} (hch : text[k]? = some ch)
    (hinvalid : dec sep ch = .invalid) (hbefore : ∀ x ∈ text.take k, dec sep x ≠ .invalid) :
    scanFrom sep pos text = some (ch, pos + k) := by
  induction text generalizing pos k with
  | nil => simp at hch
  | cons x rest ih =>
    rw [scanFrom]
    cases k with
    | zero =>
      obtain rfl : x = ch := by simpa using hch
      rw [hinvalid, if_neg (by simp [DecWord.passes]), Nat.add_zero]
    | succ k =>
      rw [List.take_succ_cons, List.forall_mem_cons] at hbefore
      obtain ⟨hx, hrest⟩ := hbefore
      rw [if_pos ((DecWord.passes_iff _).mpr hx), ih (pos + 1) (by simpa using hch) hrest, Nat.add_right_comm, Nat.add_assoc]

/-! ### The end of a command that validates first -/

/-- A command that validates first raises at the first invalid character, whatever its output would be (43_validate.md
R182, 42_decode.md R152). -/
theorem validated_of_firstInvalid (s : State) (out : List Byte) {k : Nat} {ch : Byte} (hch : text[k]? = some ch)
    (hinvalid : dec p.sep ch = .invalid) (hbefore : AllPass p (text.take k)) :
    validated p.sep s text out = s.errWith ch (k + 1) := by
  rw [validated, firstInvalid, scanFrom_of_firstInvalid 1 hch hinvalid hbefore, Nat.add_comm 1 k]
  exact State.raise_eq_errWith s ch (k + 1)

/-- The status a command that validates first ends with does not depend on its output. -/
theorem validated_st_eq (sep : Byte) (s : State) (text out other : List Byte) :
    (validated sep s text out).st = (validated sep s text other).st := by
  rw [validated, validated]
  cases firstInvalid sep text with
  | none => rfl
  | some found => rfl

/-- The error state of a command that validates first does not depend on its output. -/
theorem validated_eq_of_st_err {sep : Byte} {out : List Byte} (h : (validated sep s text out).st = .err) (other : List Byte) :
    validated sep s text out = validated sep s text other := by
  rcases validated_cases sep s text out with ⟨-, hend⟩ | ⟨ch, pos, hfound, -⟩
  · simp [hend] at h
  · rw [validated, validated, hfound]

/-! ### The end of VAL -/

theorem validateCommand_of_operandIs (h : OperandIs p s text) :
    validateCommand p s = .next (validated p.sep s text []) :=
  validateCommand_eq_next.mpr ⟨text, h, rfl⟩

/-- VAL completes on every written text that passes (43_validate.md R180, R183). -/
theorem validateCommand_of_allPass (hoperand : OperandIs p s text) (hpass : AllPass p text) :
    validateCommand p s = .next (s.okWith []) := by
  rw [validateCommand_of_operandIs hoperand, validated_of_allPass s _ hpass]

end Sys2Proof.Machine

namespace Sys2Proof
open Machine

/-- Settles O28: the scan of a text that passes finds nothing, and VAL's output is empty. -/
theorem valCompletes : Obligations.ValCompletes :=
  fun _ _ hoperand hpass => validateCommand_of_allPass hoperand hpass

/-- Settles O30: both commands validate first, and the scan stops at the first invalid character. -/
theorem firstInvalidCharacterIsRaised : Obligations.FirstInvalidCharacterIsRaised := by
  intro p s text k ch hoperand hch hinvalid hbefore
  have hend (out : List Byte) := validated_of_firstInvalid s out hch hinvalid hbefore
  constructor
  · exact (validateCommand_of_operandIs hoperand).trans (by rw [hend])
  · exact (decodeCommand_of_operandIs hoperand).trans (by rw [hend])

/-- Settles O31: the two commands scan the same operand, and an output shows in no status and in no error state. -/
theorem valAndDecAgree : Obligations.ValAndDecAgree := by
  intro s
  refine ⟨fun t hval herr => ?_, fun t hdec herr => ?_, ?_, ?_⟩
  · obtain ⟨text, hoperand, rfl⟩ := validateCommand_eq_next.mp hval
    exact decodeCommand_eq_next.mpr ⟨text, hoperand, validated_eq_of_st_err herr _⟩
  · obtain ⟨text, hoperand, rfl⟩ := decodeCommand_eq_next.mp hdec
    exact validateCommand_eq_next.mpr ⟨text, hoperand, validated_eq_of_st_err herr _⟩
  · rintro ⟨t, hval, hok⟩
    obtain ⟨text, hoperand, rfl⟩ := validateCommand_eq_next.mp hval
    exact ⟨_, decodeCommand_of_operandIs hoperand, (validated_st_eq _ _ _ _ _).trans hok⟩
  · rintro ⟨t, hdec, hok⟩
    obtain ⟨text, hoperand, rfl⟩ := decodeCommand_eq_next.mp hdec
    exact ⟨_, validateCommand_of_operandIs hoperand, (validated_st_eq _ _ _ _ _).trans hok⟩

/-- Settles O32: neither the separator's word nor a value is the invalid one, so such a text passes. -/
theorem separatorPassesAnywhere : Obligations.SeparatorPassesAnywhere := by
  intro p s text hoperand hchars
  refine validateCommand_of_allPass hoperand fun x hx => ?_
  rcases hchars x hx with hsep | ⟨v, hvalue⟩
  · rw [(dec_eq_ignorable_iff p.sep x).mpr hsep]
    nofun
  · rw [hvalue]
    nofun

end Sys2Proof
end

-- ==== What can raise, and what is refused ====
section
/-! The status every command leaves and the commands that raise (60_exceptions.md R193, R197), by the three ends of a command;
and the starts that are refused (60_exceptions.md R201), by the command `CMD` names. -/

namespace Sys2Proof.Machine
variable {p : Params} {i : Instr} {s : State}

/-! ### The codec commands -/

/-- ENC, ENCS, DEC and VAL fetch an operand and then answer by it alone. -/
theorem exists_runWith_eq_withOperand (h : i ≠ .lutrd) (p : Params) (s : State) :
    ∃ run, runWith p i s = withOperand p s run := by
  cases i with
  | lutrd => exact absurd rfl h
  | enc | encs | dec | val => exact ⟨_, rfl⟩

/-- A codec command is refused by its length or by an operand byte never written (60_exceptions.md R201 (b) and (d)). -/
theorem runWith_codec_refused_iff (h : i ≠ .lutrd) :
    (∃ r, runWith p i s = .refused r) ↔ p.nMax < s.ilen ∨ ∃ a < s.ilen, Memory.read s.ibuf a = none := by
  obtain ⟨run, hrun⟩ := exists_runWith_eq_withOperand h p s
  rw [hrun, withOperand_refused_iff]

/-! ### LUTRD -/

/-- The lookup map gives no word exactly in the reserved range (20_memory.md R55). -/
theorem lut_eq_none_iff (sep : Byte) (a : BitVec 9) : lut sep a = none ↔ 0x020#9 ≤ a ∧ a ≤ 0x0FF#9 := by
  refine ⟨fun hnone => ⟨?_, ?_⟩, fun ⟨hfrom, hto⟩ => lut_of_reserved sep hfrom hto⟩
  · by_contra hbelow
    rw [lut_of_alphabet sep (by bv_omega)] at hnone
    cases hnone
  · by_contra habove
    rw [lut_of_decode sep (by bv_omega)] at hnone
    cases hnone

/-- LUTRD is refused by its address alone (60_exceptions.md R201 (c)). -/
theorem runWith_lutrd_refused_iff :
    (∃ r, runWith p .lutrd s = .refused r) ↔ 0x020#9 ≤ s.laddr ∧ s.laddr ≤ 0x0FF#9 := by
  rw [← lut_eq_none_iff p.sep, runWith, lookupCommand]
  cases lut p.sep s.laddr with
  | some word => simp
  | none => simp

theorem lookupCommand_ne_fault (p : Params) (s : State) (f : Fault) : lookupCommand p s ≠ .fault f := by
  rw [lookupCommand]
  split <;> nofun

/-! ### Every command, and every step -/

/-- No command faults: the faults of the model are the host's accesses to the buffers. -/
theorem runWith_ne_fault (p : Params) (i : Instr) (s : State) (f : Fault) : runWith p i s ≠ .fault f := by
  by_cases hi : i = .lutrd
  · subst hi
    exact lookupCommand_ne_fault p s f
  · obtain ⟨run, hrun⟩ := exists_runWith_eq_withOperand hi p s
    rw [hrun]
    exact withOperand_ne_fault p s run f

/-- Every word up to the last command word is a command's (30_encoding.md R72). -/
theorem exists_eq_encode_of_le {w : Byte} (h : w ≤ 0x04#8) : ∃ i, w = encode i := by
  have hwords : w = 0x00 ∨ w = 0x01 ∨ w = 0x02 ∨ w = 0x03 ∨ w = 0x04 := by bv_omega
  rcases hwords with rfl | rfl | rfl | rfl | rfl
  exacts [⟨.enc, rfl⟩, ⟨.dec, rfl⟩, ⟨.val, rfl⟩, ⟨.lutrd, rfl⟩, ⟨.encs, rfl⟩]

theorem encode_eq_lutrd_iff (i : Instr) : encode i = 0x03#8 ↔ i = .lutrd := by
  cases i <;> decide

/-- A step with the word of a command in `CMD` is that command at the block's own parameters. -/
theorem step_eq_runWith (h : s.cmd = encode i) : step s = runWith Config.params i s := by
  rw [step_of_decode (decode_eq_ok_iff.mpr h), exec_eq_runWith]

/-- A START with a word above the last command word is refused (60_exceptions.md R201 (a)). -/
theorem step_refused_of_lt (h : 0x04#8 < s.cmd) : ∃ r, step s = .refused r :=
  ⟨_, step_of_decode_error (decode_of_ne_encode (ne_encode_of_le (by bv_omega)))⟩

end Sys2Proof.Machine

namespace Sys2Proof
open Machine

/-- Settles O43: an OK end clears both error registers, and the error end names an invalid character of the operand. -/
theorem everyCommandWritesStatus : Obligations.EveryCommandWritesStatus := by
  intro i s t h
  cases exec_commandEnd h with
  | completed | lookedUp => simp
  | raised ch pos _ hpos hlast hread hinvalid =>
    exact ⟨nofun, nofun, fun _ => ⟨rfl, hpos, hlast, hread, hinvalid⟩⟩

/-- Settles O44: the ends of ENC, ENCS and LUTRD are OK ends. -/
theorem onlyValAndDecRaise : Obligations.OnlyValAndDecRaise := by
  intro i s t h herr
  cases exec_commandEnd h with
  | completed | lookedUp => simp at herr
  | raised _ _ hraises => exact hraises

/-- Settles O48: a word above the last command's is refused, and any other START is refused as its command is. -/
theorem refusedStartsAreExactlyTheListed : Obligations.RefusedStartsAreExactlyTheListed := by
  intro s
  by_cases hreserved : 0x04#8 < s.cmd
  · obtain ⟨r, hrefused⟩ := step_refused_of_lt hreserved
    exact ⟨iff_of_true ⟨r, hrefused⟩ (.inl hreserved), fun f => by rw [hrefused]; nofun⟩
  · obtain ⟨i, hcmd⟩ := exists_eq_encode_of_le (BitVec.not_lt.mp hreserved)
    rw [step_eq_runWith hcmd]
    refine ⟨?_, runWith_ne_fault _ i s⟩
    by_cases hi : i = .lutrd
    · have hword : s.cmd = 0x03#8 := hcmd.trans ((encode_eq_lutrd_iff i).mpr hi)
      subst hi
      simpa [hword] using runWith_lutrd_refused_iff (p := Config.params)
    · have hword : s.cmd ≠ 0x03#8 := hcmd ▸ mt (encode_eq_lutrd_iff i).mp hi
      simpa [hreserved, hword] using runWith_codec_refused_iff (p := Config.params) (s := s) hi

end Sys2Proof
end

-- ==== The host's moves and the invariant ====
section
/-! What each move of the host can answer as a next state (70_reset_and_hazards.md R228), and that a host program keeps what
each of its moves keeps. -/

namespace Sys2Proof.Machine
variable {p : Params} {s t : State}

/-! ### The moves of a host program -/

/-- A host program answers a next state exactly when its first move does and the rest of the program does from there. -/
theorem runMoves_cons_eq_next {m : HostMove} {rest : List HostMove} :
    runMoves (m :: rest) s = .next t ↔ ∃ u, hostMove m s = .next u ∧ runMoves rest u = .next t := by
  rw [runMoves]
  cases hostMove m s with
  | next u => simp
  | fault f => simp
  | refused r => simp

/-- What every move of the host keeps, every host program keeps. -/
theorem runMoves_keeps {P : State → Prop} (hmove : ∀ m s t, P s → hostMove m s = .next t → P t) {moves : List HostMove}
    (hs : P s) (hrun : runMoves moves s = .next t) : P t := by
  induction moves generalizing s with
  | nil => cases hrun; exact hs
  | cons m rest ih =>
    obtain ⟨u, hfirst, hrest⟩ := runMoves_cons_eq_next.mp hrun
    exact ih (hmove m s u hs hfirst) hrest

/-! ### What the moves answer -/

/-- A host write of a register that is not refused sets it to a value that fits, or leaves the state (10_state.md R25). -/
theorem hostWriteReg_next_cases {r : Reg} {v : Nat} (h : hostWriteReg p r v s = .next t) :
    (v < 2 ^ r.width p ∧ t = s.setReg r v) ∨ t = s := by
  rw [hostWriteReg] at h
  split at h
  · split at h
    case isTrue hfits => cases h; exact .inl ⟨hfits, rfl⟩
    case isFalse => cases h
  · cases h; exact .inr rfl

/-- A host write of a byte of `IBUF` stores it at an index that exists (20_memory.md R56). -/
theorem hostWriteIbuf_eq_next {i : Nat} {v : Byte} :
    hostWriteIbuf p i v s = .next t ↔ i < p.nMax ∧ t = { s with ibuf := Memory.write s.ibuf i v } := by
  rw [hostWriteIbuf]
  split
  case isTrue h => simp [h, eq_comm]
  case isFalse h => simp [h]

/-- A host read of a register or of a buffer that returns a value leaves the state (20_memory.md R54). -/
theorem eq_of_hostMove_read {m : HostMove} (hread : (∃ r, m = .readReg r) ∨ (∃ i, m = .readIbuf i) ∨ (∃ i, m = .readObuf i))
    (h : hostMove m s = .next t) : t = s := by
  rcases hread with ⟨r, rfl⟩ | ⟨i, rfl⟩ | ⟨i, rfl⟩
  · cases h; rfl
  · exact (afterRead_eq_next.mp h).1
  · exact (afterRead_eq_next.mp h).1

/-! ### The invariant -/

/-- A register set to a value that fits it keeps the invariant, which bounds only `ILEN` of the registers the host writes. -/
theorem State.Inv.setReg (h : s.Inv p) {r : Reg} {v : Nat} (hfits : v < 2 ^ r.width p) : (s.setReg r v).Inv p := by
  cases r with
  | cmd | laddr => exact { h with }
  | ilen => exact { h with ilenFits := hfits }
  | st | olen | errChar | errPos | ldata => exact h

/-- A byte stored at an index of `IBUF` keeps the invariant. -/
theorem State.Inv.writeIbuf (h : s.Inv p) {i : Nat} (hi : i < p.nMax) (v : Byte) :
    { s with ibuf := Memory.write s.ibuf i v }.Inv p :=
  { h with
    ibufCanonical := Memory.write_wf _ _ _ h.ibufCanonical
    ibufWithin := fun c hc => (Memory.mem_write hc).elim (fun heq => heq ▸ hi) (h.ibufWithin c) }

/-- Every move of the host keeps the invariant: START by the step's own lemma, reset by the state it leaves. -/
theorem State.Inv.hostMove {m : HostMove} (h : s.Inv Config.params) (hmove : hostMove m s = .next t) :
    t.Inv Config.params := by
  cases m with
  | writeReg r v =>
    rcases hostWriteReg_next_cases hmove with ⟨hfits, rfl⟩ | rfl
    · exact h.setReg hfits
    · exact h
  | writeIbuf i v =>
    obtain ⟨hi, rfl⟩ := hostWriteIbuf_eq_next.mp hmove
    exact h.writeIbuf hi v
  | writeObuf i v => cases hmove; exact h
  | readReg r => exact eq_of_hostMove_read (.inl ⟨r, rfl⟩) hmove ▸ h
  | readIbuf i => exact eq_of_hostMove_read (.inr (.inl ⟨i, rfl⟩)) hmove ▸ h
  | readObuf i => exact eq_of_hostMove_read (.inr (.inr ⟨i, rfl⟩)) hmove ▸ h
  | start => exact stepKeepsInvariant s t h hmove
  | reset => cases hmove; exact State.reset_inv Config.params

end Sys2Proof.Machine

namespace Sys2Proof
open Machine

/-- Settles O53: each move keeps the invariant, hence every list of moves. -/
theorem hostProgramsKeepInvariant : Obligations.HostProgramsKeepInvariant :=
  fun _ _ _ hinv hrun => runMoves_keeps (fun _ _ _ h hmove => State.Inv.hostMove h hmove) hinv hrun

end Sys2Proof
end

-- ==== What a command depends on ====
section
/-! A command reads its operand and nothing else (70_reset_and_hazards.md R225), and outside the refused cases it completes
(R227). -/

namespace Sys2Proof.Machine
variable {p : Params} {i : Instr} {s t u : State}

/-! ### Another history -/

/-- `u` with the results a codec command leaves in `t`; `runWith_endAs` ties it to the commands. -/
def State.endAs (u t : State) : State :=
  { u with st := t.st, olen := t.olen, errChar := t.errChar, errPos := t.errPos, obuf := t.obuf }

/-- The end of a command that validates first is the same from every state. -/
theorem validated_eq_endAs (sep : Byte) (s u : State) (text out : List Byte) :
    validated sep u text out = u.endAs (validated sep s text out) := by
  rw [validated, validated]
  cases firstInvalid sep text with
  | none => rfl
  | some found => rfl

/-- Two starts with the same `ILEN` and `IBUF[0..ILEN-1]` have the same operand. -/
theorem operandIs_of_same_input {operand : List Byte} (hilen : u.ilen = s.ilen)
    (hibuf : ∀ a < s.ilen, Memory.read u.ibuf a = Memory.read s.ibuf a) (h : OperandIs p s operand) :
    OperandIs p u operand := by
  obtain ⟨hlen, hmax, hbytes⟩ := h
  exact ⟨hilen.trans hlen, hilen ▸ hmax, fun a ha => (hibuf a (hlen ▸ ha)).trans (hbytes a ha)⟩

/-- The results of a codec command depend on `ILEN` and `IBUF[0..ILEN-1]` alone. -/
theorem runWith_endAs (hcodec : i ≠ .lutrd) (hilen : u.ilen = s.ilen)
    (hibuf : ∀ a < s.ilen, Memory.read u.ibuf a = Memory.read s.ibuf a) (h : runWith p i s = .next t) :
    runWith p i u = .next (u.endAs t) := by
  cases i with
  | enc | encs =>
    obtain ⟨payload, hoperand, rfl⟩ := encodeCommand_eq_next.mp h
    exact encodeCommand_eq_next.mpr ⟨payload, operandIs_of_same_input hilen hibuf hoperand, rfl⟩
  | dec =>
    obtain ⟨text, hoperand, rfl⟩ := decodeCommand_eq_next.mp h
    exact decodeCommand_eq_next.mpr
      ⟨text, operandIs_of_same_input hilen hibuf hoperand, (validated_eq_endAs p.sep s u text _).symm⟩
  | val =>
    obtain ⟨text, hoperand, rfl⟩ := validateCommand_eq_next.mp h
    exact validateCommand_eq_next.mpr
      ⟨text, operandIs_of_same_input hilen hibuf hoperand, (validated_eq_endAs p.sep s u text _).symm⟩
  | lutrd => exact absurd rfl hcodec

/-! ### Completion -/

/-- A command is refused exactly when its start is not ready (60_exceptions.md R201 (b) to (d)). -/
theorem runWith_refused_iff : (∃ r, runWith p i s = .refused r) ↔ ¬ Ready p i s := by
  by_cases hi : i = .lutrd
  · subst hi
    rw [runWith_lutrd_refused_iff, Ready, if_pos rfl, not_not]
  · rw [runWith_codec_refused_iff hi, Ready, if_neg hi]
    simp only [not_and_or, not_le, not_forall, Bool.not_eq_true, Option.isSome_eq_false_iff, Option.isNone_iff_eq_none,
      exists_prop]

/-- A command whose start is ready answers a next state: it neither faults nor is refused. -/
theorem exists_runWith_eq_next (h : Ready p i s) : ∃ t, runWith p i s = .next t := by
  cases hrun : runWith p i s with
  | next t => exact ⟨t, rfl⟩
  | fault f => exact absurd hrun (runWith_ne_fault p i s f)
  | refused r => exact absurd h (runWith_refused_iff.mp ⟨r, hrun⟩)

/-- Every end of a command is OK or ERR (60_exceptions.md R197). -/
theorem CommandEnd.st_eq (hend : CommandEnd p i s t) : t.st = .ok ∨ t.st = .err := by
  cases hend with
  | completed | lookedUp => exact .inl rfl
  | raised => exact .inr rfl

end Sys2Proof.Machine

namespace Sys2Proof
open Machine

/-- Settles O47: a codec command's results depend on its operand alone, LUTRD's on the word at its address. -/
theorem outcomeIgnoresEarlierState : Obligations.OutcomeIgnoresEarlierState := by
  intro i s u t hdecode hcmd hcodec hlutrd hstep
  rw [step_of_decode hdecode, exec_eq_runWith] at hstep
  rw [step_of_decode (hcmd ▸ hdecode), exec_eq_runWith]
  by_cases hi : i = .lutrd
  · subst hi
    obtain ⟨word, hword, rfl⟩ := lookupCommand_eq_next.mp hstep
    rw [← hlutrd rfl] at hword
    exact ⟨_, lookupCommand_eq_next.mpr ⟨word, hword, rfl⟩, rfl, rfl, rfl, rfl, fun _ _ => rfl, fun _ => rfl⟩
  · obtain ⟨hilen, hibuf⟩ := hcodec hi
    exact ⟨u.endAs t, runWith_endAs hi hilen hibuf hstep, rfl, rfl, rfl, rfl, fun _ _ => rfl, fun h => absurd h hi⟩

/-- Settles O49: a ready command answers a next state, which is one of a command's ends. -/
theorem readyCommandsComplete : Obligations.ReadyCommandsComplete := by
  intro i s hready
  obtain ⟨t, hrun⟩ := exists_runWith_eq_next hready
  exact ⟨t, exec_eq_runWith i s ▸ hrun, (runWith_commandEnd hrun).st_eq⟩

end Sys2Proof
end

-- ==== The host's writes and reads ====
section
/-! What a host read returns after a host write, and what reads leave (70_reset_and_hazards.md R228); the values after reset
(R220). -/

namespace Sys2Proof.Machine
variable {p : Params} {s : State} {r : Reg} {i v : Nat} {b : Byte}

/-! ### The registers -/

/-- A register the host may write reads as the value written, if that fits (10_state.md R26 to R28). -/
theorem State.readReg_setReg_same (hwritable : r.hostWritable = true) (hfits : v < 2 ^ r.width p) :
    (s.setReg r v).readReg r = v := by
  cases r with
  | cmd | laddr => exact Nat.mod_eq_of_lt hfits
  | ilen => rfl
  | st | olen | errChar | errPos | ldata => cases hwritable

/-- A write of a register leaves what every other register reads as. -/
theorem State.readReg_setReg_other {q : Reg} (h : q ≠ r) : (s.setReg r v).readReg q = s.readReg q := by
  cases q with
  | st | olen | errChar | errPos | ldata => simp [State.readReg]
  | cmd | ilen | laddr => cases r <;> trivial

/-- A value that does not fit a register the host may write is no move (93 U13; log 4). -/
theorem hostWriteReg_of_le (hwritable : r.hostWritable = true) (hwide : 2 ^ r.width p ≤ v) :
    hostWriteReg p r v s = .refused (.valueTooWide v) := by
  rw [hostWriteReg, if_pos hwritable, if_neg (Nat.not_lt.mpr hwide)]

/-! ### The input buffer -/

/-- The host writes no index at or above `N_MAX` (20_memory.md R56). -/
theorem hostWriteIbuf_of_le (h : p.nMax ≤ i) : hostWriteIbuf p i b s = .fault (.ibufNoSuchIndex i) :=
  if_neg (Nat.not_lt.mpr h)

/-- The host reads no index at or above `N_MAX` (20_memory.md R56). -/
theorem hostReadIbuf_of_le (h : p.nMax ≤ i) : hostReadIbuf p i s = .error (.ibufNoSuchIndex i) :=
  if_neg (Nat.not_lt.mpr h)

/-- A byte that has a value is what the host reads. -/
theorem hostReadIbuf_of_some (hi : i < p.nMax) (hread : Memory.read s.ibuf i = some b) : hostReadIbuf p i s = .ok b := by
  rw [hostReadIbuf, if_pos hi, hread]

/-- A byte nothing has written since reset gives the host no value (93 U8; log 11). -/
theorem hostReadIbuf_of_none (hi : i < p.nMax) (hread : Memory.read s.ibuf i = none) :
    hostReadIbuf p i s = .error (.ibufUnwritten i) := by
  rw [hostReadIbuf, if_pos hi, hread]

end Sys2Proof.Machine

namespace Sys2Proof
open Machine

/-- Settles O56: the written register reads as the value, the others and the buffers as before; no wider value is written. -/
theorem operandRegisterWrites : Obligations.OperandRegisterWrites := by
  intro r v s hr
  have hwritable : r.hostWritable = true := (hostWritable_iff r).mpr hr
  refine ⟨fun hfits => ?_, hostWriteReg_of_le hwritable⟩
  exact ⟨s.setReg r v, hostMove_writeReg hwritable hfits s, State.readReg_setReg_same hwritable hfits,
    fun _ => State.readReg_setReg_other, State.setReg_ibuf s r v, State.setReg_obuf s r v⟩

/-- Settles O57: the write is that of the buffer, whose laws give what is read back, and the moves are the accesses. -/
theorem ibufWriteThenRead : Obligations.IbufWriteThenRead := by
  refine ⟨fun p i v s => ⟨fun hi => ?_, hostReadIbuf_of_some, hostReadIbuf_of_none,
    fun hi => ⟨hostWriteIbuf_of_le hi, hostReadIbuf_of_le hi⟩⟩, fun i v s => ⟨rfl, fun w hok => ?_, fun f herror => ?_⟩⟩
  · exact ⟨_, hostWriteIbuf_eq_next.mpr ⟨hi, rfl⟩, hostReadIbuf_of_some hi (Memory.read_write_same s.ibuf i v),
      fun _ hne => Memory.read_write_other s.ibuf v hne, rfl⟩
  · rw [hostMove, hok, afterRead]
  · rw [hostMove, herror, afterRead]

/-- Settles O58: a read of a register is its field, `ST` by its code, and a read that answers leaves the state. -/
theorem hostReadsChangeNothing : Obligations.HostReadsChangeNothing := by
  refine ⟨fun s => ?_, fun _ _ _ => eq_of_hostMove_read⟩
  have hcode {st : Status} (hst : s.st = st) : s.readReg .st = st.code.toNat := by rw [State.readReg, hst]
  exact ⟨fun _ => rfl, rfl, rfl, rfl, hcode, hcode, hcode, rfl, rfl, rfl, rfl⟩

/-- Settles O50: the reset state has the values of Table 10-3, and its buffers are empty. -/
theorem resetValues : Obligations.ResetValues :=
  ⟨rfl, rfl, rfl, rfl, rfl, rfl, rfl, rfl, fun a => ⟨Memory.read_nil a, Memory.read_nil a⟩⟩

end Sys2Proof
end
